-- ==== Sys2Proof/Word.lean ====
section
/-! DEFINITION. The two word types of AESCORE (spec/00_scope.md section 6, spec/20_memory.md R26). -/

namespace Sys2Proof

/-- A byte: an 8-bit unsigned value, also an element of GF(2^8) (R60). -/
abbrev Byte := BitVec 8

/-- A word: a 32-bit unsigned number, one column of cipher state or one schedule entry (R26). -/
abbrev Word := BitVec 32

end Sys2Proof
end

