-- ==== Sys2Proof/Config.lean ====
section
/-! DEFINITION. What is fixed for the machine (spec/00_scope.md section 4) and the values the spec leaves open. -/

namespace Sys2Proof.Config

/-- Block size in bytes (R4). -/
def blockBytes : Nat := 16

/-- Required length of the CBC IV in bytes (R29). -/
def cbcIvBytes : Nat := 16

/-- Required length of the CTR nonce in bytes (R29). -/
def ctrNonceBytes : Nat := 4

/-- Required length of the CTR per-message IV in bytes (R29). -/
def ctrIvBytes : Nat := 8

/-- First value of the CTR block counter (R120). -/
def ctrStart : Word := 1

/-- Words in each of the stores `EK` and `DK` (R15, R25). -/
abbrev scheduleWords : Nat := 60

/-- Largest length of operand A and of operand B, the 8-bit length fields of R41. -/
def maxShort : Nat := 255

/-- Largest length of operand D, the 32-bit length field of R41. -/
def maxData : Nat := 4294967295

/-- Bytes of a command header and of a response header (R41, R44). -/
def headerBytes : Nat := 8

/-! ### Free values

Constants with no body: nothing in Lean can evaluate one. `draw` is the plain counter `State.draws`, advanced
whenever free values are taken, so each taking is a fresh one. A free value depends on `draw`, and on an index where it
has one, alone, and so not on what the register held before: DESIGN CHOICE (log 2, log 3, log 4). -/

/-- `NK` after a reset event (R150, U1; log 4). -/
opaque freeNk (draw : Nat) : BitVec 4

/-- `NR` after a reset event (R150, U1; log 4). -/
opaque freeNr (draw : Nat) : BitVec 4

/-- `EK[i]` where it is unspecified: after a reset event (U1, log 4) and past the schedule's end (U4, log 3). -/
opaque freeEk (draw i : Nat) : Word

/-- `DK[i]` where it is unspecified: after a reset event (U1, log 4) and past the schedule's end (U4, log 3). -/
opaque freeDk (draw i : Nat) : Word

/-- `ST[c]` after a command or a reset event (U3, log 2). -/
opaque freeSt (draw c : Nat) : Word

/-- `RND` after a command or a reset event (U3, log 2). -/
opaque freeRnd (draw : Nat) : BitVec 4

/-- Byte `i` of `CV` after a command or a reset event (U3, log 2). -/
opaque freeCv (draw i : Nat) : Byte

/-- Byte `i` of `NONCE` after a command or a reset event (U3, log 2). -/
opaque freeNonce (draw i : Nat) : Byte

/-- Byte `i` of `CIV` after a command or a reset event (U3, log 2). -/
opaque freeCiv (draw i : Nat) : Byte

/-- `CTR` after a command or a reset event (U3, log 2). -/
opaque freeCtr (draw : Nat) : Word

/-- `BLK` after a command or a reset event (U3, log 2). -/
opaque freeBlk (draw : Nat) : BitVec 28

/-- What `OPA` holds after a command or a reset event (U3, log 2). -/
opaque freeOpa (draw : Nat) : List Byte

/-- What `OPB` holds after a command or a reset event (U3, log 2). -/
opaque freeOpb (draw : Nat) : List Byte

/-- What `OPD` holds after a command or a reset event (U3, log 2). -/
opaque freeOpd (draw : Nat) : List Byte

/-- What `OUT` holds after a command or a reset event (U3, log 2). -/
opaque freeOut (draw : Nat) : List Byte

/-- A byte read past the end of a byte string or table, which no rule of the spec does (R33; log 9). -/
opaque absentByte (i : Nat) : Byte

/-- A schedule word read past the end of a word space, which no rule of the spec does (R33; log 9). -/
opaque absentWord (i : Nat) : Word

end Sys2Proof.Config
end

