-- ==== Sys2Proof/Syntax.lean ====
section
/-! DEFINITION. The nine commands of "AESCORE command set 1" (spec/30_encoding.md R43), and the notation the spec
gives for writing them (R51, R52). -/

namespace Sys2Proof

/-- One constructor per row of spec/opcode_table.json. A command carries its operands as byte strings, first byte
first: operand A, then B, then D, those the row uses (R43). -/
inductive Instr where
  /-- `KEXP`: expand and load a key (R90). -/
  | kexp (key : List Byte)
  /-- `BENC`: encrypt one block (R103). -/
  | benc (data : List Byte)
  /-- `BDEC`: decrypt one block (R104). -/
  | bdec (data : List Byte)
  /-- `ECBE`: ECB encrypt (R112). -/
  | ecbe (data : List Byte)
  /-- `ECBD`: ECB decrypt (R113). -/
  | ecbd (data : List Byte)
  /-- `CBCE`: CBC encrypt (R114). -/
  | cbce (iv data : List Byte)
  /-- `CBCD`: CBC decrypt (R116). -/
  | cbcd (iv data : List Byte)
  /-- `CTRE`: CTR encrypt (R118). -/
  | ctre (nonce iv data : List Byte)
  /-- `CTRD`: CTR decrypt (R119). -/
  | ctrd (nonce iv data : List Byte)
deriving DecidableEq, Repr

/-- The nine mnemonics, the rows of the opcode map (R43, R46). -/
inductive Op where
  | kexp | benc | bdec | ecbe | ecbd | cbce | cbcd | ctre | ctrd
deriving DecidableEq, Repr

/-- The row a command stands in. -/
def Instr.op : Instr → Op
  | .kexp _ => .kexp
  | .benc _ => .benc
  | .bdec _ => .bdec
  | .ecbe _ => .ecbe
  | .ecbd _ => .ecbd
  | .cbce _ _ => .cbce
  | .cbcd _ _ => .cbcd
  | .ctre _ _ _ => .ctre
  | .ctrd _ _ _ => .ctrd

/-- Operand A of a command, empty where the row does not use it (R43). -/
def Instr.operandA : Instr → List Byte
  | .kexp key => key
  | .benc _ => []
  | .bdec _ => []
  | .ecbe _ => []
  | .ecbd _ => []
  | .cbce iv _ => iv
  | .cbcd iv _ => iv
  | .ctre nonce _ _ => nonce
  | .ctrd nonce _ _ => nonce

/-- Operand B of a command, empty where the row does not use it (R43). -/
def Instr.operandB : Instr → List Byte
  | .kexp _ => []
  | .benc _ => []
  | .bdec _ => []
  | .ecbe _ => []
  | .ecbd _ => []
  | .cbce _ _ => []
  | .cbcd _ _ => []
  | .ctre _ iv _ => iv
  | .ctrd _ iv _ => iv

/-- Operand D, the data operand, empty where the row does not use it (R43). -/
def Instr.operandD : Instr → List Byte
  | .kexp _ => []
  | .benc data => data
  | .bdec data => data
  | .ecbe data => data
  | .ecbd data => data
  | .cbce _ data => data
  | .cbcd _ data => data
  | .ctre _ _ data => data
  | .ctrd _ _ data => data

/-- The six pseudo-commands of the assembler, each standing for a `KEXP` and one mode command (R52). -/
inductive Pseudo where
  | ecbenc (key data : List Byte)
  | ecbdec (key data : List Byte)
  | cbcenc (key iv data : List Byte)
  | cbcdec (key iv data : List Byte)
  | ctrenc (key nonce iv data : List Byte)
  | ctrdec (key nonce iv data : List Byte)
deriving DecidableEq, Repr

/-- The fields a `.frame` line or a command line gives a frame; an operand not written is empty (R51). -/
structure FrameSpec where
  op  : Byte
  rsv : Byte
  a   : List Byte
  b   : List Byte
  d   : List Byte
deriving DecidableEq, Repr

end Sys2Proof
end

