-- ==== Sys2Proof/WellFormed.lean ====
section
/-! DEFINITION. Which commands a frame can carry: every operand fits its length field (spec/30_encoding.md R41).
Operand lengths a command requires are not checked here: a wrong one is the command's own error (R46, R50). -/

namespace Sys2Proof

/-- Operand A fits the 8-bit field `ALEN` (R41). -/
def fitsA (i : Instr) : Bool := i.operandA.length ≤ Config.maxShort

/-- Operand B fits the 8-bit field `BLEN` (R41). -/
def fitsB (i : Instr) : Bool := i.operandB.length ≤ Config.maxShort

/-- Operand D fits the 32-bit field `DLEN` (R41). -/
def fitsD (i : Instr) : Bool := i.operandD.length ≤ Config.maxData

/-- The command can be carried by a command frame. -/
def wellFormed (i : Instr) : Bool := fitsA i && fitsB i && fitsD i

end Sys2Proof
end

