-- ==== Sys2Proof/Decode.lean ====
section
/-! DEFINITION. Byte order, the command frame, the decoder and the encoder (spec/20_memory.md R26 to R28,
spec/30_encoding.md R41 to R49, spec/41_round_transforms.md R70). -/

namespace Sys2Proof

/-! ### Byte order -/

/-- `W(b0,b1,b2,b3)`: four bytes packed big-endian into a word (R70, R26). -/
def packWord (b0 b1 b2 b3 : Byte) : Word :=
  (b0.setWidth 32 <<< 24) ||| (b1.setWidth 32 <<< 16) ||| (b2.setWidth 32 <<< 8) ||| b3.setWidth 32

/-- `B(w,r)`: byte position `r` of a word, bits `31-8r` down to `24-8r`, for `r` in 0 to 3 (R70). -/
def byteAt (w : Word) (r : Nat) : Byte := (w >>> (24 - 8 * r)).setWidth 8

/-- `BE32`: the four bytes of a word, most significant first (R28). -/
def be32 (w : Word) : List Byte := [byteAt w 0, byteAt w 1, byteAt w 2, byteAt w 3]

/-- Byte `i` of a byte string; every use of it is inside the string (R33, log 9). -/
def byteOf (x : List Byte) (i : Nat) : Byte := x.getD i (Config.absentByte i)

/-! ### The command header -/

/-- The five fields of a command header (R41). -/
structure Header where
  op   : Byte
  rsv  : Byte
  alen : Byte
  blen : Byte
  dlen : Word
deriving DecidableEq, Repr

/-- The header `H` as a 64-bit big-endian number: frame byte 0 is `H[63:56]`, frame byte 7 is `H[7:0]` (R41). -/
def headerNumber (h : Header) : BitVec 64 :=
  (h.op.setWidth 64 <<< 56) ||| (h.rsv.setWidth 64 <<< 48) ||| (h.alen.setWidth 64 <<< 40)
    ||| (h.blen.setWidth 64 <<< 32) ||| h.dlen.setWidth 64

/-- The fields of a header given as the number `H` (R41). -/
def headerFields (n : BitVec 64) : Header :=
  { op := (n >>> 56).setWidth 8, rsv := (n >>> 48).setWidth 8, alen := (n >>> 40).setWidth 8,
    blen := (n >>> 32).setWidth 8, dlen := n.setWidth 32 }

/-- The eight frame bytes of a header (R41, R28). -/
def headerToBytes (h : Header) : List Byte := [h.op, h.rsv, h.alen, h.blen] ++ be32 h.dlen

/-- Bytes of operand A, B and D together (R41). -/
def operandBytes (h : Header) : Nat := h.alen.toNat + h.blen.toNat + h.dlen.toNat

/-- Length of the whole frame, a natural number whatever the opcode is (R41, R123). -/
def frameLength (h : Header) : Nat := Config.headerBytes + operandBytes h

/-! ### The opcode map -/

/-- The value of `OP` for each command (R43). -/
def opcode : Op → Byte
  | .kexp => 0x01
  | .benc => 0x10
  | .bdec => 0x11
  | .ecbe => 0x20
  | .ecbd => 0x21
  | .cbce => 0x30
  | .cbcd => 0x31
  | .ctre => 0x40
  | .ctrd => 0x41

/-- Every row of the opcode map, in the order of R43. -/
def allOps : List Op := [.kexp, .benc, .bdec, .ecbe, .ecbd, .cbce, .cbcd, .ctre, .ctrd]

/-- Whether a row uses operand A (R43). -/
def usesA : Op → Bool
  | .kexp => true
  | .benc => false
  | .bdec => false
  | .ecbe => false
  | .ecbd => false
  | .cbce => true
  | .cbcd => true
  | .ctre => true
  | .ctrd => true

/-- Whether a row uses operand B (R43). -/
def usesB : Op → Bool
  | .kexp => false
  | .benc => false
  | .bdec => false
  | .ecbe => false
  | .ecbd => false
  | .cbce => false
  | .cbcd => false
  | .ctre => true
  | .ctrd => true

/-- Whether a row uses operand D (R43). -/
def usesD : Op → Bool
  | .kexp => false
  | .benc => true
  | .bdec => true
  | .ecbe => true
  | .ecbd => true
  | .cbce => true
  | .cbcd => true
  | .ctre => true
  | .ctrd => true

/-! ### Decoding -/

/-- Why a header is an illegal command, by name (R47). -/
inductive Reject where
  /-- R47 (a): `OP` is none of the nine values. -/
  | unknownOp (op : Byte)
  /-- R47 (b): `RSV` is not zero. -/
  | reservedByte (rsv : Byte)
  /-- R47 (c): `ALEN` is not zero on a command that does not use operand A. -/
  | unusedOperandA (alen : Byte)
  /-- R47 (c): `BLEN` is not zero on a command that does not use operand B. -/
  | unusedOperandB (blen : Byte)
  /-- R47 (c): `DLEN` is not zero on a command that does not use operand D. -/
  | unusedOperandD (dlen : Word)
deriving DecidableEq, Repr

/-- The row whose opcode a byte is (R43). -/
def rowOf (op : Byte) : Option Op := allOps.find? fun o => opcode o == op

/-- Decode a header by the fixed fields of R46, or reject it by name (R47). -/
def decodeHeader (h : Header) : Except Reject Op :=
  match rowOf h.op with
  | none => .error (.unknownOp h.op)
  | some o =>
    if h.rsv ≠ 0 then .error (.reservedByte h.rsv)
    else if usesA o = false ∧ h.alen ≠ 0 then .error (.unusedOperandA h.alen)
    else if usesB o = false ∧ h.blen ≠ 0 then .error (.unusedOperandB h.blen)
    else if usesD o = false ∧ h.dlen ≠ 0 then .error (.unusedOperandD h.dlen)
    else .ok o

/-- The command of a row with its three operands (R42, R43). -/
def build (o : Op) (a b d : List Byte) : Instr :=
  match o with
  | .kexp => .kexp a
  | .benc => .benc d
  | .bdec => .bdec d
  | .ecbe => .ecbe d
  | .ecbd => .ecbd d
  | .cbce => .cbce a d
  | .cbcd => .cbcd a d
  | .ctre => .ctre a b d
  | .ctrd => .ctrd a b d

/-- What the decoder makes of the bytes that have arrived. `length` is how many bytes the frame takes. -/
inductive Decoded where
  /-- A whole frame that carries a command. -/
  | command (i : Instr) (length : Nat)
  /-- A whole frame whose header decodes to no command (R47, R48). -/
  | illegal (why : Reject) (length : Nat)
  /-- Fewer bytes than the frame has: the frame does not begin to execute (R48). -/
  | incomplete
deriving DecidableEq, Repr

/-- Decode the frame of header `h` whose operand bytes are at the front of `body` (R42, R46, R48). -/
def decodeFrame (h : Header) (body : List Byte) : Decoded :=
  if body.length < operandBytes h then .incomplete
  else
    match decodeHeader h with
    | .error why => .illegal why (frameLength h)
    | .ok o =>
      .command
        (build o (body.take h.alen.toNat) ((body.drop h.alen.toNat).take h.blen.toNat)
          ((body.drop (h.alen.toNat + h.blen.toNat)).take h.dlen.toNat))
        (frameLength h)

/-- The decoder: total on every byte string; it reads the frame at its front (R40, R41, R48). -/
def decode (bytes : List Byte) : Decoded :=
  match bytes with
  | op :: rsv :: alen :: blen :: d0 :: d1 :: d2 :: d3 :: body =>
    decodeFrame { op := op, rsv := rsv, alen := alen, blen := blen, dlen := packWord d0 d1 d2 d3 } body
  | _ => .incomplete

/-! ### Encoding -/

/-- A frame with any header fields at all; lengths are those of the operands given (R41, R42, `.frame` of R51). -/
def rawFrame (op rsv : Byte) (a b d : List Byte) : List Byte :=
  headerToBytes
    { op := op, rsv := rsv, alen := BitVec.ofNat 8 a.length, blen := BitVec.ofNat 8 b.length,
      dlen := BitVec.ofNat 32 d.length }
    ++ a ++ b ++ d

/-- The encoder: the frame bytes of a well-formed command (R41 to R43). -/
def encode (i : Instr) : List Byte := rawFrame (opcode i.op) 0 i.operandA i.operandB i.operandD

/-! ### The opcode table's own numbering

spec/opcode_table.json gives a row as match and mask on the header number `H` of R41, one 64-bit big-endian word. -/

/-- The column "match" of R46 and of the opcode table. -/
def opMatch : Op → BitVec 64
  | .kexp => 0x0100000000000000
  | .benc => 0x1000000000000000
  | .bdec => 0x1100000000000000
  | .ecbe => 0x2000000000000000
  | .ecbd => 0x2100000000000000
  | .cbce => 0x3000000000000000
  | .cbcd => 0x3100000000000000
  | .ctre => 0x4000000000000000
  | .ctrd => 0x4100000000000000

/-- The column "mask" of R46 and of the opcode table. -/
def opMask : Op → BitVec 64
  | .kexp => 0xFFFF00FFFFFFFFFF
  | .benc => 0xFFFFFFFF00000000
  | .bdec => 0xFFFFFFFF00000000
  | .ecbe => 0xFFFFFFFF00000000
  | .ecbd => 0xFFFFFFFF00000000
  | .cbce => 0xFFFF00FF00000000
  | .cbcd => 0xFFFF00FF00000000
  | .ctre => 0xFFFF000000000000
  | .ctrd => 0xFFFF000000000000

/-- The frame whose header is bits 63..0 of `w` and whose operand bytes count on from bit 64, as long as the header
says (log 18). -/
def tableFrame (nbits w : Nat) : List Byte :=
  let v := w % 2 ^ nbits
  let h := headerFields (BitVec.ofNat 64 v)
  headerToBytes h ++ (List.range (operandBytes h)).map fun k => BitVec.ofNat 8 (v >>> (64 + 8 * k))

/-- The command the decoder reads from the bits `w` of an opcode-table row. -/
def decodeTableWord (nbits w : Nat) : Option Instr :=
  match decode (tableFrame nbits w) with
  | .command i _ => some i
  | .illegal _ _ => none
  | .incomplete => none

end Sys2Proof
end

