-- ==== Sys2Proof/Machine/Field.lean ====
section
/-! DEFINITION. GF(2^8) and the constant tables (spec/40_gf_sbox.md R60 to R69). -/

namespace Sys2Proof.Machine

/-- One field-doubling step, reduced by `0x11B` (R61). -/
def xtime (a : Byte) : Byte := (a <<< 1) ^^^ (if a.msb then 0x1B else 0)

/-- One iteration of `Mul`: `acc` and `pow_a` at bit `n` of `b` (R62). -/
def mulStep (b : Byte) (r : Byte × Byte) (n : Nat) : Byte × Byte :=
  (if b.getLsbD n then r.1 ^^^ r.2 else r.1, xtime r.2)

/-- `Mul(a, b)`: the field product, eight iterations from the least significant bit of `b` (R62). -/
def mul (a b : Byte) : Byte := ((List.range 8).foldl (mulStep b) (0, a)).1

/-- The XOR of `f i` over a list of indices. -/
def xorSum (f : Nat → BitVec 16) : List Nat → BitVec 16
  | [] => 0
  | i :: rest => f i ^^^ xorSum f rest

/-- The carry-less product of two bytes, up to 15 bits: the XOR of `x^(i+j)` over the set bits `i` of `a` and `j` of `b`
(R63). -/
def carrylessProduct (a b : Byte) : BitVec 16 :=
  xorSum (fun i => xorSum (fun j => if a.getLsbD i && b.getLsbD j then 1#16 <<< (i + j) else 0) (List.range 8))
    (List.range 8)

/-- One reduction step by `0x11B` at bit `k` (R63). -/
def reduceAt (p : BitVec 16) (k : Nat) : BitVec 16 := if p.getLsbD k then p ^^^ (0x11B#16 <<< (k - 8)) else p

/-- `MulBrute(a, b)`: the carry-less product reduced from bit 14 down to bit 8, the spec's cross-check of `Mul` (R63).
The machine does not use it. -/
def mulBrute (a b : Byte) : Byte :=
  ([14, 13, 12, 11, 10, 9, 8].foldl reduceAt (carrylessProduct a b)).setWidth 8

/-- `Inv(b)`: the multiplicative inverse, found by search, 0 for 0 (R64). -/
def inv (b : Byte) : Byte :=
  (((List.range 256).map (BitVec.ofNat 8)).find? fun c => mul b c == 1).getD 0

/-- `Affine(v)`: the affine map of the S-box (R65; the spec's own supply, log 11). -/
def affine (v : Byte) : Byte :=
  v ^^^ v.rotateLeft 1 ^^^ v.rotateLeft 2 ^^^ v.rotateLeft 3 ^^^ v.rotateLeft 4 ^^^ 0x63

/-- The rows of the table `SBOX`: row `x` holds entries `x0` to `xf`, leftmost first (R66). -/
def sboxRows : List (BitVec 128) :=
  [ 0x637c777bf26b6fc53001672bfed7ab76,
    0xca82c97dfa5947f0add4a2af9ca472c0,
    0xb7fd9326363ff7cc34a5e5f171d83115,
    0x04c723c31896059a071280e2eb27b275,
    0x09832c1a1b6e5aa0523bd6b329e32f84,
    0x53d100ed20fcb15b6acbbe394a4c58cf,
    0xd0efaafb434d338545f9027f503c9fa8,
    0x51a3408f929d38f5bcb6da2110fff3d2,
    0xcd0c13ec5f974417c4a77e3d645d1973,
    0x60814fdc222a908846eeb814de5e0bdb,
    0xe0323a0a4906245cc2d3ac629195e479,
    0xe7c8376d8dd54ea96c56f4ea657aae08,
    0xba78252e1ca6b4c6e8dd741f4bbd8b8a,
    0x703eb5664803f60e613557b986c11d9e,
    0xe1f8981169d98e949b1e87e9ce5528df,
    0x8ca1890dbfe6426841992d0fb054bb16 ]

/-- The rows of the table `INVSBOX`, in the layout of `sboxRows` (R67). -/
def invSboxRows : List (BitVec 128) :=
  [ 0x52096ad53036a538bf40a39e81f3d7fb,
    0x7ce339829b2fff87348e4344c4dee9cb,
    0x547b9432a6c2233dee4c950b42fac34e,
    0x082ea16628d924b2765ba2496d8bd125,
    0x72f8f66486689816d4a45ccc5d65b692,
    0x6c704850fdedb9da5e154657a78d9d84,
    0x90d8ab008cbcd30af7e45805b8b34506,
    0xd02c1e8fca3f0f02c1afbd0301138a6b,
    0x3a9111414f67dcea97f2cfcef0b4e673,
    0x96ac7422e7ad3585e2f937e81c75df6e,
    0x47f11a711d29c5896fb7620eaa18be1b,
    0xfc563e4bc6d279209adbc0fe78cd5af4,
    0x1fdda8338807c731b11210592780ec5f,
    0x60517fa919b54a0d2de57a9f93c99cef,
    0xa0e03b4dae2af5b0c8ebbb3c83539961,
    0x172b047eba77d626e169146355210c7d ]

/-- The entry of a 256-byte table for `b`: row the high nibble, column the low nibble (R66). -/
def tableByte (rows : List (BitVec 128)) (b : Byte) : Byte :=
  ((rows.getD (b.toNat / 16) 0) >>> (8 * (15 - b.toNat % 16))).setWidth 8

/-- `SBOX[b]`, a constant of the hardware (R19, R66, R69). -/
def sbox (b : Byte) : Byte := tableByte sboxRows b

/-- `INVSBOX[b]`, a constant of the hardware (R19, R67, R69). -/
def invSbox (b : Byte) : Byte := tableByte invSboxRows b

/-- The ten entries of the table `RCON` (R68). -/
def rconTable : List Byte := [0x01, 0x02, 0x04, 0x08, 0x10, 0x20, 0x40, 0x80, 0x1b, 0x36]

/-- `RCON[n]`; the table has no entry past 9 and no rule reads one (R68, R96, log 9). -/
def rcon (n : Nat) : Byte := byteOf rconTable n

end Sys2Proof.Machine
end

