-- ==== Sys2Proof/Machine/State.lean ====
section
/-! DEFINITION. The state of AESCORE (spec/10_state.md), why a step can stop, and the machine right after reset. -/

namespace Sys2Proof.Machine

/-- Why the machine stops with a fault: NEVER, so there is no constructor. Every error of the spec is a status in a
response, after which the core takes the next frame (R132, R138), and the step is total (R40). Nobody raises one;
safe (log 8). -/
inductive Fault where
deriving DecidableEq, Repr

/-- Why an instruction has no meaning. -/
inductive Refusal where
  /-- Raised by an arm of `exec` whose command has no meaning yet; no arm raises it now. Safe. -/
  | notModelled (mnemonic : String)
deriving DecidableEq, Repr

/-- The five error statuses (R130). -/
inductive ErrorKind where
  /-- Key length not 16, 24 or 32 (R133). -/
  | invalidKeySize
  /-- Block not 16 bytes, ECB or CBC message not a multiple of 16 (R134). -/
  | invalidBlockSize
  /-- IV or nonce of the wrong length (R135). -/
  | invalidIvSize
  /-- A cipher command while `KV = 0` (R131). -/
  | noKey
  /-- The header decodes to no command (R136). -/
  | illegalCommand
deriving DecidableEq, Repr

/-- The outcome of a command, reported once in its response (R13, R130). -/
inductive Status where
  | ok
  | error (e : ErrorKind)
deriving DecidableEq, Repr

/-- The cipher state, four column words (R20). -/
structure Columns where
  c0 : Word
  c1 : Word
  c2 : Word
  c3 : Word
deriving DecidableEq, Repr

/-- The persistent state, the one key slot (R14, R15). -/
structure KeySlot where
  /-- `KV`: a key schedule is loaded. -/
  kv : Bool
  /-- `NK`: key length in words. -/
  nk : BitVec 4
  /-- `NR`: number of rounds. -/
  nr : BitVec 4
  /-- `EK[0..59]`: encryption round-key words. -/
  ek : Vector Word Config.scheduleWords
  /-- `DK[0..59]`: decryption round-key words. -/
  dk : Vector Word Config.scheduleWords
deriving DecidableEq, Repr

/-- The transient state: registers that hold a defined value only inside one command (R20 to R23). Inside a command
the meanings carry `ST`, `RND`, `CV`, `NONCE`, `CIV`, `CTR`, `BLK` and `OUT` as local values; between commands every
one of them is unspecified (U3, log 2, log 10). -/
structure Transient where
  /-- `ST[0..3]`: the cipher state. -/
  st : Columns
  /-- `RND`: current round. -/
  rnd : BitVec 4
  /-- `CV`: CBC chaining vector. -/
  cv : Vector Byte 16
  /-- `NONCE`: CTR nonce. -/
  nonce : Vector Byte 4
  /-- `CIV`: CTR per-message IV. -/
  civ : Vector Byte 8
  /-- `CTR`: CTR block counter. -/
  ctr : Word
  /-- `BLK`: index of the block being processed. -/
  blk : BitVec 28
  /-- `OPA`: operand A of the current command. -/
  opa : List Byte
  /-- `OPB`: operand B of the current command. -/
  opb : List Byte
  /-- `OPD`: operand D of the current command. -/
  opd : List Byte
  /-- `OUT`: output of the current command. -/
  out : List Byte
deriving DecidableEq, Repr

/-- What the transport brings the core, in order (`P_TRANSPORT`, D1; log 5). DESIGN CHOICE (log 24): whether a transport
can abandon a cut frame short of a reset is left to `P_TRANSPORT` (R48, D17), and there is no such event here. -/
inductive Arrival where
  /-- One byte of a command frame. -/
  | byte (b : Byte)
  /-- The reset event (R150; log 4). It may strike at any time, so it says when: it catches the last `lost` of the
  bytes that came before it, and no command whose frame has a caught byte had been answered. So 0 is an event that
  strikes when every whole frame before it has its response, and 1 one that strikes while the command whose frame ends
  there is in progress. -/
  | reset (lost : Nat)
deriving DecidableEq, Repr

/-- The whole machine with the two ends of its transport. -/
structure State where
  /-- Persistent state (R14). -/
  slot : KeySlot
  /-- Transient state (R20 to R22, R25). -/
  work : Transient
  /-- What has arrived and is not yet consumed, oldest first. -/
  input : List Arrival
  /-- Every byte of every response emitted, oldest first. -/
  output : List Byte
  /-- How often free values have been taken: the model's own counter (log 2). -/
  draws : Nat
deriving DecidableEq, Repr

/-- The key slot right after reset: `KV = 0` (R24, R150); the other values are the model's (log 1). -/
def KeySlot.atReset : KeySlot :=
  { kv := false, nk := 0, nr := 0, ek := Vector.replicate 60 0, dk := Vector.replicate 60 0 }

/-- The transient state right after reset: the model's values (log 1). -/
def Transient.atReset : Transient :=
  { st := ⟨0, 0, 0, 0⟩, rnd := 0, cv := Vector.replicate 16 0, nonce := Vector.replicate 4 0,
    civ := Vector.replicate 8 0, ctr := 0, blk := 0, opa := [], opb := [], opd := [], out := [] }

/-- The machine right after reset (R24, R150): no key, nothing arrived, nothing answered (log 1). -/
def State.reset : State :=
  { slot := KeySlot.atReset, work := Transient.atReset, input := [], output := [], draws := 0 }

end Sys2Proof.Machine
end

