-- ==== Sys2Proof/Machine/Rounds.lean ====
section
/-! DEFINITION. The round transformations (spec/41_round_transforms.md R71 to R84). -/

namespace Sys2Proof.Machine

/-! ### Words -/

/-- `SubWord(w)` (R71). -/
def subWord (w : Word) : Word :=
  packWord (sbox (byteAt w 0)) (sbox (byteAt w 1)) (sbox (byteAt w 2)) (sbox (byteAt w 3))

/-- `InvSubWord(w)` (R72). -/
def invSubWord (w : Word) : Word :=
  packWord (invSbox (byteAt w 0)) (invSbox (byteAt w 1)) (invSbox (byteAt w 2)) (invSbox (byteAt w 3))

/-- `RotWord(w)`: rotate left by one byte (R73). -/
def rotWord (w : Word) : Word := (w <<< 8) ||| (w >>> 24)

/-- `MixColumn(w)` (R78; the assignment of bytes to coefficients is the spec's own supply, log 12). -/
def mixColumn (w : Word) : Word :=
  let a0 := byteAt w 0
  let a1 := byteAt w 1
  let a2 := byteAt w 2
  let a3 := byteAt w 3
  packWord
    (mul 0x02 a0 ^^^ mul 0x03 a1 ^^^ a2 ^^^ a3)
    (a0 ^^^ mul 0x02 a1 ^^^ mul 0x03 a2 ^^^ a3)
    (a0 ^^^ a1 ^^^ mul 0x02 a2 ^^^ mul 0x03 a3)
    (mul 0x03 a0 ^^^ a1 ^^^ a2 ^^^ mul 0x02 a3)

/-- `InvMixColumn(w)` (R79). -/
def invMixColumn (w : Word) : Word :=
  let a0 := byteAt w 0
  let a1 := byteAt w 1
  let a2 := byteAt w 2
  let a3 := byteAt w 3
  packWord
    (mul 0x0e a0 ^^^ mul 0x0b a1 ^^^ mul 0x0d a2 ^^^ mul 0x09 a3)
    (mul 0x09 a0 ^^^ mul 0x0e a1 ^^^ mul 0x0b a2 ^^^ mul 0x0d a3)
    (mul 0x0d a0 ^^^ mul 0x09 a1 ^^^ mul 0x0e a2 ^^^ mul 0x0b a3)
    (mul 0x0b a0 ^^^ mul 0x0d a1 ^^^ mul 0x09 a2 ^^^ mul 0x0e a3)

/-! ### The cipher state -/

/-- Apply a word operation to each of the four columns. -/
def Columns.map (f : Word → Word) (s : Columns) : Columns := ⟨f s.c0, f s.c1, f s.c2, f s.c3⟩

/-- `S[c]`: column `c` modulo 4. -/
def Columns.col (s : Columns) (c : Nat) : Word :=
  match c % 4 with
  | 0 => s.c0
  | 1 => s.c1
  | 2 => s.c2
  | _ => s.c3

/-- `SubBytes(S)` (R74). -/
def subBytes (s : Columns) : Columns := s.map subWord

/-- `InvSubBytes(S)` (R75). -/
def invSubBytes (s : Columns) : Columns := s.map invSubWord

/-- Column `c` of `ShiftRows(S)`: row `r` comes from old column `c + r` modulo 4 (R76). -/
def shiftedColumn (s : Columns) (c : Nat) : Word :=
  packWord (byteAt (s.col c) 0) (byteAt (s.col (c + 1)) 1) (byteAt (s.col (c + 2)) 2) (byteAt (s.col (c + 3)) 3)

/-- `ShiftRows(S)` (R76). -/
def shiftRows (s : Columns) : Columns :=
  ⟨shiftedColumn s 0, shiftedColumn s 1, shiftedColumn s 2, shiftedColumn s 3⟩

/-- Column `c` of `InvShiftRows(S)`: row `r` comes from old column `c - r` modulo 4 (R77). -/
def invShiftedColumn (s : Columns) (c : Nat) : Word :=
  packWord (byteAt (s.col c) 0) (byteAt (s.col (c + 3)) 1) (byteAt (s.col (c + 2)) 2) (byteAt (s.col (c + 1)) 3)

/-- `InvShiftRows(S)` (R77). -/
def invShiftRows (s : Columns) : Columns :=
  ⟨invShiftedColumn s 0, invShiftedColumn s 1, invShiftedColumn s 2, invShiftedColumn s 3⟩

/-- `MixColumns(S)` (R80). -/
def mixColumns (s : Columns) : Columns := s.map mixColumn

/-- `InvMixColumns(S)` (R81). -/
def invMixColumns (s : Columns) : Columns := s.map invMixColumn

/-- `AddRoundKey(S, SCHED, g)`: group `g` of the schedule is its words `4g` to `4g+3` (R82). -/
def addRoundKey (s : Columns) (sched : Nat → Word) (g : Nat) : Columns :=
  ⟨s.c0 ^^^ sched (4 * g), s.c1 ^^^ sched (4 * g + 1), s.c2 ^^^ sched (4 * g + 2), s.c3 ^^^ sched (4 * g + 3)⟩

/-! ### Block to state and back -/

/-- Word `i` of a byte string, bytes `4i` to `4i+3` big-endian (R27). -/
def wordOfBytes (x : List Byte) (i : Nat) : Word :=
  packWord (byteOf x (4 * i)) (byteOf x (4 * i + 1)) (byteOf x (4 * i + 2)) (byteOf x (4 * i + 3))

/-- `LoadState(X)` (R83). -/
def loadState (x : List Byte) : Columns :=
  ⟨wordOfBytes x 0, wordOfBytes x 1, wordOfBytes x 2, wordOfBytes x 3⟩

/-- `StoreState(S)` (R84). -/
def storeState (s : Columns) : List Byte := be32 s.c0 ++ be32 s.c1 ++ be32 s.c2 ++ be32 s.c3

end Sys2Proof.Machine
end

