-- ==== Sys2Proof/Machine/KeySchedule.lean ====
section
/-! DEFINITION. The key schedule expander (spec/42_key_schedule.md R91 to R97). -/

namespace Sys2Proof.Machine

/-- What `ExpandKey` returns: `(nk, nr, ek, dk)` (R93). -/
structure Schedule where
  nk : Nat
  nr : Nat
  ek : List Word
  dk : List Word
deriving DecidableEq, Repr

/-- The key lengths `ExpandKey` accepts (R91). -/
def legalKeyLength (n : Nat) : Bool := n == 16 || n == 24 || n == 32

/-- `Nk` for a key of `n` bytes (R3). -/
def keyWords (n : Nat) : Nat := n / 4

/-- `Nr` for a key of `n` bytes (R3). -/
def rounds (n : Nat) : Nat := keyWords n + 6

/-- Words in each table for `nr` rounds: `4*(nr+1)` (R91). -/
def tableWords (nr : Nat) : Nat := 4 * (nr + 1)

/-- Word `i` of a list of schedule words; every use of it is inside the list (R96, log 9). -/
def wordAt (ws : List Word) (i : Nat) : Word := ws.getD i (Config.absentWord i)

/-- The value `temp` takes for word `i`, from the word before it (R92): rotate, substitute and add the round constant
at multiples of `nk`; substitute only at `i % 8 = 4` of a 256-bit key. -/
def scheduleTemp (nk i : Nat) (prev : Word) : Word :=
  if i % nk = 0 then subWord (rotWord prev) ^^^ ((rcon (i / nk - 1)).setWidth 32 <<< 24)
  else if 6 < nk ∧ i % nk = 4 then subWord prev
  else prev

/-- `ek[i]` from the words before it (R92). -/
def nextWord (nk : Nat) (ws : List Word) : Word :=
  wordAt ws (ws.length - nk) ^^^ scheduleTemp nk ws.length (wordAt ws (ws.length - 1))

/-- Append `n` further words, in increasing index (R92). -/
def extend (nk : Nat) : Nat → List Word → List Word
  | 0, ws => ws
  | n + 1, ws => extend nk n (ws ++ [nextWord nk ws])

/-- `ExpandKey`, first half: the encryption table (R92). -/
def encryptionTable (key : List Byte) : List Word :=
  let nk := keyWords key.length
  extend nk (tableWords (rounds key.length) - nk) ((List.range nk).map (wordOfBytes key))

/-- `ExpandKey`, second half: the decryption table, the middle groups through `InvMixColumn` (R93). -/
def decryptionTable (nr : Nat) (ek : List Word) : List Word :=
  (List.range (tableWords nr)).map fun i =>
    if 4 ≤ i ∧ i < 4 * nr then invMixColumn (wordAt ek i) else wordAt ek i

/-- `ExpandKey(K)` (R92, R93, R97). -/
def expandKey (key : List Byte) : Schedule :=
  let nr := rounds key.length
  let ek := encryptionTable key
  { nk := keyWords key.length, nr := nr, ek := ek, dk := decryptionTable nr ek }

end Sys2Proof.Machine
end

