-- ==== Sys2Proof/Machine/Cipher.lean ====
section
/-! DEFINITION. The single-block cipher over a schedule (spec/43_block_cipher.md R100, R101, R105). A schedule is read
by word index, `sched i` being word `i` of `EK` or of `DK`. -/

namespace Sys2Proof.Machine

/-- One middle round of `Encrypt`, round `rnd` (R100 step 2). -/
def encryptRound (ek : Nat → Word) (st : Columns) (rnd : Nat) : Columns :=
  addRoundKey (mixColumns (shiftRows (subBytes st))) ek rnd

/-- The rounds of `Encrypt`, on the cipher state (R100 steps 1 to 3). -/
def encryptState (nr : Nat) (ek : Nat → Word) (st : Columns) : Columns :=
  let st := addRoundKey st ek 0
  let st := (List.range' 1 (nr - 1)).foldl (encryptRound ek) st
  addRoundKey (shiftRows (subBytes st)) ek nr

/-- `Encrypt(P)` with `NR = nr` and the schedule `ek` (R100). -/
def encryptBlock (nr : Nat) (ek : Nat → Word) (p : List Byte) : List Byte :=
  storeState (encryptState nr ek (loadState p))

/-- One middle round of `Decrypt`, round `rnd`: `InvMixColumns` before `AddRoundKey` (R101 step 2, C1; log 13). -/
def decryptRound (dk : Nat → Word) (st : Columns) (rnd : Nat) : Columns :=
  addRoundKey (invMixColumns (invSubBytes (invShiftRows st))) dk rnd

/-- The rounds of `Decrypt`, on the cipher state, from `NR` down (R101 steps 1 to 3). -/
def decryptState (nr : Nat) (dk : Nat → Word) (st : Columns) : Columns :=
  let st := addRoundKey st dk nr
  let st := (List.range' 1 (nr - 1)).reverse.foldl (decryptRound dk) st
  addRoundKey (invSubBytes (invShiftRows st)) dk 0

/-- `Decrypt(C)` with `NR = nr` and the schedule `dk` (R101). -/
def decryptBlock (nr : Nat) (dk : Nat → Word) (c : List Byte) : List Byte :=
  storeState (decryptState nr dk (loadState c))

/-- One middle round of `DecryptStraight` (R105). -/
def straightRound (ek : Nat → Word) (st : Columns) (rnd : Nat) : Columns :=
  invMixColumns (addRoundKey (invSubBytes (invShiftRows st)) ek rnd)

/-- `DecryptStraight(C)`: the straight inverse cipher over the encryption table, the spec's cross-check of `Decrypt`
(R105). The machine does not use it. -/
def decryptStraight (nr : Nat) (ek : Nat → Word) (c : List Byte) : List Byte :=
  let st := addRoundKey (loadState c) ek nr
  let st := (List.range' 1 (nr - 1)).reverse.foldl (straightRound ek) st
  storeState (addRoundKey (invSubBytes (invShiftRows st)) ek 0)

end Sys2Proof.Machine
end

