-- ==== Sys2Proof/Machine/Operands.lean ====
section
/-! DEFINITION. How a command reads what it works on: byte strings (`MemRead` of spec/00_scope.md section 6) and the
key slot (spec/20_memory.md R25, spec/45_cross_family_laws.md R126). -/

namespace Sys2Proof.Machine

/-- `MemRead(space, addr, n)` on a byte space (spec/00_scope.md section 6); a read has no side effect (R31). -/
def memRead (space : List Byte) (addr n : Nat) : List Byte := (space.drop addr).take n

/-- `^` on byte strings of equal length, position by position (spec/00_scope.md section 6, R124). -/
def xorBytes (x y : List Byte) : List Byte := List.zipWith (· ^^^ ·) x y

/-- A word of a 60-word schedule store; no rule reads past word 59 (R33, log 9). -/
def storeWord (v : Vector Word Config.scheduleWords) (i : Nat) : Word :=
  if h : i < Config.scheduleWords then v[i] else Config.absentWord i

/-- `EK[i]` (R15). -/
def KeySlot.ekWord (k : KeySlot) (i : Nat) : Word := storeWord k.ek i

/-- `DK[i]` (R15). -/
def KeySlot.dkWord (k : KeySlot) (i : Nat) : Word := storeWord k.dk i

/-- `Encrypt` with the loaded key: reads `NR` and `EK`, never `DK` (R100, R122). -/
def KeySlot.encrypt (k : KeySlot) (p : List Byte) : List Byte := encryptBlock k.nr.toNat k.ekWord p

/-- `Decrypt` with the loaded key: reads `NR` and `DK`, never `EK` (R101, R122). -/
def KeySlot.decrypt (k : KeySlot) (c : List Byte) : List Byte := decryptBlock k.nr.toNat k.dkWord c

end Sys2Proof.Machine
end

