-- ==== Sys2Proof/Machine/Flags.lean ====
section
/-! DEFINITION. AESCORE has no flags and no condition codes (spec/10_state.md R13). What stands in their place is the
status of a response and the conditions that decide it (spec/60_exceptions.md R130 to R137, spec/30_encoding.md R50). -/

namespace Sys2Proof.Machine

/-- The `STATUS` byte of a response (R130). -/
def statusCode : Status → Byte
  | .ok => 0x00
  | .error .invalidKeySize => 0x01
  | .error .invalidBlockSize => 0x02
  | .error .invalidIvSize => 0x03
  | .error .noKey => 0x04
  | .error .illegalCommand => 0x05

/-- The data operand is one block (R50). -/
def isBlock (data : List Byte) : Bool := data.length == Config.blockBytes

/-- The data operand is a whole number of blocks, possibly none (R50, R110). -/
def isBlocks (data : List Byte) : Bool := data.length % Config.blockBytes == 0

/-- The IV of a CBC command has the required length (R50). -/
def isCbcIv (iv : List Byte) : Bool := iv.length == Config.cbcIvBytes

/-- The nonce and the IV of a CTR command have the required lengths (R50). -/
def isCtrIv (nonce iv : List Byte) : Bool := nonce.length == Config.ctrNonceBytes && iv.length == Config.ctrIvBytes

end Sys2Proof.Machine
end

