-- ==== Sys2Proof/Machine/Ops.lean ====
section
/-! DEFINITION. The operations every command shares: receiving operands, answering, raising an error (the "trap entry"
of AESCORE), committing a schedule, fetching a frame, and the reset event (spec/30_encoding.md, spec/60_exceptions.md,
spec/70_reset_and_hazards.md). -/

namespace Sys2Proof.Machine

/-- What a command answers with. -/
abbrev Result := Host.Outcome State Fault Refusal

/-! ### The transient state between commands -/

/-- Transient registers whose values the spec leaves unspecified, all of them free; the operand and output buffers
keep their largest lengths (U1, U3, R10; log 2). -/
def freeTransient (draw : Nat) : Transient :=
  { st := ⟨Config.freeSt draw 0, Config.freeSt draw 1, Config.freeSt draw 2, Config.freeSt draw 3⟩
    rnd := Config.freeRnd draw
    cv := Vector.ofFn fun i => Config.freeCv draw i.val
    nonce := Vector.ofFn fun i => Config.freeNonce draw i.val
    civ := Vector.ofFn fun i => Config.freeCiv draw i.val
    ctr := Config.freeCtr draw
    blk := Config.freeBlk draw
    opa := (Config.freeOpa draw).take Config.maxShort
    opb := (Config.freeOpb draw).take Config.maxShort
    opd := (Config.freeOpd draw).take Config.maxData
    out := (Config.freeOut draw).take Config.maxData }

/-- The transient state once a command has responded (R21, R132, U3). -/
def endCommand (s : State) : State := { s with work := freeTransient s.draws, draws := s.draws + 1 }

/-! ### Operands in, output out -/

/-- Frame reception fills the three operand buffers; the output is still empty (R10, R25, R42). -/
def receive (a b d : List Byte) (s : State) : State :=
  { s with work := { s.work with opa := a, opb := b, opd := d, out := [] } }

/-- A command writes its output buffer (`MemWrite(OUT, ..)`, R126). -/
def writeOut (y : List Byte) (s : State) : State := { s with work := { s.work with out := y } }

/-- A response frame: `STATUS`, three zero bytes, `OLEN` big-endian, the output (R44). -/
def responseFrame (st : Status) (out : List Byte) : List Byte :=
  [statusCode st, 0, 0, 0] ++ be32 (BitVec.ofNat 32 out.length) ++ out

/-- Emit a whole response (R40, R44). -/
def emit (st : Status) (out : List Byte) (s : State) : State := { s with output := s.output ++ responseFrame st out }

/-- `respond STATUS = OK`: the response carries `OUT`, and the command is over (R45, R90, R103). -/
def respondOk (s : State) : Result := .next (endCommand (emit .ok s.work.out s))

/-- `raise E`: taking an error. The command stops, `OUT` is discarded, the response is the header alone, the persistent
state is as it was (R132). The return from it is the next step, which takes the next frame (R138). -/
def raiseError (e : ErrorKind) (s : State) : Result := .next (endCommand (emit (.error e) [] s))

/-! ### The key slot -/

/-- Words `0` to `n-1` of a store come from the table; the others are unspecified, so free (R16, U4; log 3). DESIGN
CHOICE: a free word does not depend on what the store held before. -/
def storeTable (n : Nat) (ws : List Word) (free : Nat → Word) : Vector Word Config.scheduleWords :=
  Vector.ofFn fun i => if i.val < n then wordAt ws i.val else free i.val

/-- Commit a schedule, all five fields at once (R90, R94). DESIGN CHOICE (log 3): U4, D18 and N19 leave open whether the
words past the schedule's end keep old key words; here they are a function of `draws` and the index alone, and so never of
the old schedule. -/
def commit (k : Schedule) (s : State) : State :=
  { s with slot :=
      { kv := true, nk := BitVec.ofNat 4 k.nk, nr := BitVec.ofNat 4 k.nr,
        ek := storeTable (tableWords k.nr) k.ek (Config.freeEk s.draws),
        dk := storeTable (tableWords k.nr) k.dk (Config.freeDk s.draws) } }

/-! ### Arrivals -/

/-- The bytes at the front of what has arrived, up to the first reset event. -/
def leadingBytes : List Arrival → List Byte
  | .byte b :: rest => b :: leadingBytes rest
  | .reset _ :: _ => []
  | [] => []

/-- How many bytes the first reset event catches; 0 when none stands there (R150; log 4). -/
def lostBytes : List Arrival → Nat
  | .byte _ :: rest => lostBytes rest
  | .reset lost :: _ => lost
  | [] => 0

/-- The bytes the core is in time to take: those at the front that the first reset event does not catch. A command whose
whole frame is among them is answered; one whose frame has a caught byte, be the frame whole or not, is not (R150). -/
def bytesInTime (arrivals : List Arrival) : List Byte :=
  (leadingBytes arrivals).take ((leadingBytes arrivals).length - lostBytes arrivals)

/-- Take `n` arrivals off the front. -/
def consume (n : Nat) (s : State) : State := { s with input := s.input.drop n }

/-- What the core finds when it looks for its next frame. -/
inductive Fetched where
  /-- A whole frame with a command: the command and its bytes. -/
  | command (i : Instr) (length : Nat)
  /-- A whole frame that is an illegal command (R48). -/
  | illegal (length : Nat)
  /-- A reset event, and how many bytes before it go with it: those of a command in progress, of frames behind it and of
  an unfinished frame (R150). -/
  | reset (forgotten : Nat)
  /-- Neither: the core waits (R48, R141). -/
  | idle
deriving DecidableEq, Repr

/-- Look at what has arrived: a whole frame that the core is in time to take is taken; otherwise a reset event, if one
follows, abandons the command in progress and forgets an unfinished frame (R40, R48, R150). -/
def fetch (s : State) : Fetched :=
  match decode (bytesInTime s.input) with
  | .command i n => .command i n
  | .illegal _ n => .illegal n
  | .incomplete =>
    if (leadingBytes s.input).length < s.input.length then .reset (leadingBytes s.input).length else .idle

/-- An illegal command: nothing executes, its operand bytes are consumed and ignored, the answer is `IllegalCommand`
(R46, R48, R136). -/
def answerIllegal (s : State) : Result := raiseError .illegalCommand s

/-- The key slot after a reset event: `KV = 0`, the rest unspecified, so free (R24, R150, U1). DESIGN CHOICE (log 4): U2
leaves open whether a reset erases the old key material or keeps it; here `NK`, `NR`, `EK`, `DK` are functions of `draws`
and the index alone, and so never of the old slot. -/
def freeSlot (draw : Nat) : KeySlot :=
  { kv := false, nk := Config.freeNk draw, nr := Config.freeNr draw,
    ek := Vector.ofFn fun i => Config.freeEk draw i.val, dk := Vector.ofFn fun i => Config.freeDk draw i.val }

/-- The reset event (R150): no key, nothing else specified, and no response, not even to a command in progress. Bytes of
responses already emitted have left the core. -/
def resetEvent (s : State) : State := endCommand { s with slot := freeSlot s.draws }

end Sys2Proof.Machine
end

