-- ==== Sys2Proof/Machine/Block.lean ====
section
/-! DEFINITION. The single-block family: `BENC`, `BDEC` (spec/43_block_cipher.md R103, R104). -/

namespace Sys2Proof.Machine

/-- A single-block command with block function `f` of the key slot: the checks of R50 in their order, then one block. -/
def blockCommand (f : KeySlot → List Byte → List Byte) (s : State) : Result :=
  if s.slot.kv = false then raiseError .noKey s
  else if isBlock s.work.opd = false then raiseError .invalidBlockSize s
  else respondOk (writeOut (f s.slot (memRead s.work.opd 0 16)) s)

/-- `BENC` (R103). -/
def execBenc (data : List Byte) (s : State) : Result := blockCommand KeySlot.encrypt (receive [] [] data s)

/-- `BDEC` (R104). -/
def execBdec (data : List Byte) (s : State) : Result := blockCommand KeySlot.decrypt (receive [] [] data s)

end Sys2Proof.Machine
end

