-- ==== Sys2Proof/Machine/Modes.lean ====
section
/-! DEFINITION. The mode wrappers as functions on byte strings (spec/44_modes.md R110 to R120). Each takes the block
function it uses, the number of blocks still to do and what is left of the message, block 0 first (R35, R110). -/

namespace Sys2Proof.Machine

/-- Blocks of a message of `n` bytes: `ceil(n/16)` (R110). -/
def blockCount (n : Nat) : Nat := (n + 15) / 16

/-- ECB: each block by itself (R112, R113). -/
def ecbBlocks (f : List Byte → List Byte) : Nat → List Byte → List Byte
  | 0, _ => []
  | n + 1, x => f (memRead x 0 16) ++ ecbBlocks f n (x.drop 16)

/-- CBC encryption from chaining vector `cv`; the next one is the ciphertext block just emitted (R114). -/
def cbcEncryptBlocks (enc : List Byte → List Byte) : Nat → List Byte → List Byte → List Byte
  | 0, _, _ => []
  | n + 1, cv, x =>
    let y := enc (xorBytes (memRead x 0 16) cv)
    y ++ cbcEncryptBlocks enc n y (x.drop 16)

/-- CBC decryption from chaining vector `cv`; the next one is the ciphertext block just read (R116). -/
def cbcDecryptBlocks (dec : List Byte → List Byte) : Nat → List Byte → List Byte → List Byte
  | 0, _, _ => []
  | n + 1, cv, x =>
    let xb := memRead x 0 16
    xorBytes (dec xb) cv ++ cbcDecryptBlocks dec n xb (x.drop 16)

/-- `CounterBlock(NONCE, CIV, n)` (R117). -/
def counterBlock (nonce civ : List Byte) (n : Word) : List Byte := nonce ++ civ ++ be32 n

/-- CTR from counter value `ctr`: the first `m` keystream bytes, `m` being 16 or what is left (R118); the counter is 32
bits and increments modulo 2^32 (R120). -/
def ctrBlocks (enc : List Byte → List Byte) (nonce civ : List Byte) : Nat → Word → List Byte → List Byte
  | 0, _, _ => []
  | n + 1, ctr, x =>
    let m := min 16 x.length
    let ks := enc (counterBlock nonce civ ctr)
    xorBytes (memRead x 0 m) (memRead ks 0 m) ++ ctrBlocks enc nonce civ n (ctr + 1) (x.drop 16)

end Sys2Proof.Machine
end

