-- ==== Sys2Proof/Machine/Cbc.lean ====
section
/-! DEFINITION. The CBC family: `CBCE`, `CBCD` (spec/44_modes.md R114, R116). -/

namespace Sys2Proof.Machine

/-- A CBC command with chaining function `f` of the key slot, the number of blocks, the first chaining vector and the
message: the checks of R50 in their order, a bad IV being `InvalidIvSize` (C3), then all blocks. -/
def cbcCommand (f : KeySlot → Nat → List Byte → List Byte → List Byte) (s : State) : Result :=
  if s.slot.kv = false then raiseError .noKey s
  else if isCbcIv s.work.opa = false then raiseError .invalidIvSize s
  else if isBlocks s.work.opd = false then raiseError .invalidBlockSize s
  else respondOk (writeOut (f s.slot (s.work.opd.length / 16) (memRead s.work.opa 0 16) s.work.opd) s)

/-- `CBCE` (R114). -/
def execCbce (iv data : List Byte) (s : State) : Result :=
  cbcCommand (fun k => cbcEncryptBlocks k.encrypt) (receive iv [] data s)

/-- `CBCD` (R116). -/
def execCbcd (iv data : List Byte) (s : State) : Result :=
  cbcCommand (fun k => cbcDecryptBlocks k.decrypt) (receive iv [] data s)

end Sys2Proof.Machine
end

