-- ==== Sys2Proof/Machine/Ctr.lean ====
section
/-! DEFINITION. The CTR family: `CTRE`, `CTRD` (spec/44_modes.md R118, R119). -/

namespace Sys2Proof.Machine

/-- A CTR command in either direction: always `Encrypt`, always `EK` (R118, R119, R122). -/
def ctrCommand (s : State) : Result :=
  if s.slot.kv = false then raiseError .noKey s
  else if isCtrIv s.work.opa s.work.opb = false then raiseError .invalidIvSize s
  else
    respondOk (writeOut
      (ctrBlocks s.slot.encrypt (memRead s.work.opa 0 4) (memRead s.work.opb 0 8) (blockCount s.work.opd.length)
        Config.ctrStart s.work.opd) s)

/-- `CTRE` (R118). -/
def execCtre (nonce iv data : List Byte) (s : State) : Result := ctrCommand (receive nonce iv data s)

/-- `CTRD`: the same computation with the ciphertext as operand D (R119). -/
def execCtrd (nonce iv data : List Byte) (s : State) : Result := ctrCommand (receive nonce iv data s)

end Sys2Proof.Machine
end

