-- ==== Sys2Proof/Machine/Ecb.lean ====
section
/-! DEFINITION. The ECB family: `ECBE`, `ECBD` (spec/44_modes.md R112, R113). -/

namespace Sys2Proof.Machine

/-- An ECB command with block function `f` of the key slot: all checks before the first block (R50, R111). -/
def ecbCommand (f : KeySlot → List Byte → List Byte) (s : State) : Result :=
  if s.slot.kv = false then raiseError .noKey s
  else if isBlocks s.work.opd = false then raiseError .invalidBlockSize s
  else respondOk (writeOut (ecbBlocks (f s.slot) (s.work.opd.length / 16) s.work.opd) s)

/-- `ECBE` (R112). -/
def execEcbe (data : List Byte) (s : State) : Result := ecbCommand KeySlot.encrypt (receive [] [] data s)

/-- `ECBD` (R113). -/
def execEcbd (data : List Byte) (s : State) : Result := ecbCommand KeySlot.decrypt (receive [] [] data s)

end Sys2Proof.Machine
end

