-- ==== Sys2Proof/Machine/Key.lean ====
section
/-! DEFINITION. The key family: `KEXP` (spec/42_key_schedule.md). -/

namespace Sys2Proof.Machine

/-- `KEXP` once its operand is received (R90, R91, R95): the key is `OPA`. -/
def loadKey (s : State) : Result :=
  if legalKeyLength s.work.opa.length then
    respondOk (commit (expandKey (memRead s.work.opa 0 s.work.opa.length)) s)
  else raiseError .invalidKeySize s

/-- `KEXP` (R90). -/
def execKexp (key : List Byte) (s : State) : Result := loadKey (receive key [] [] s)

end Sys2Proof.Machine
end

