-- ==== Sys2Proof/Machine/Dispatch.lean ====
section
/-! DEFINITION. One arm per command (spec/30_encoding.md R43). -/

namespace Sys2Proof.Machine

def exec (i : Instr) (s : State) : Host.Outcome State Fault Refusal :=
  match i with
  | .kexp key => Sys2Proof.Machine.execKexp key s
  | .benc data => Sys2Proof.Machine.execBenc data s
  | .bdec data => Sys2Proof.Machine.execBdec data s
  | .ecbe data => Sys2Proof.Machine.execEcbe data s
  | .ecbd data => Sys2Proof.Machine.execEcbd data s
  | .cbce iv data => Sys2Proof.Machine.execCbce iv data s
  | .cbcd iv data => Sys2Proof.Machine.execCbcd iv data s
  | .ctre nonce iv data => Sys2Proof.Machine.execCtre nonce iv data s
  | .ctrd nonce iv data => Sys2Proof.Machine.execCtrd nonce iv data s

end Sys2Proof.Machine
end

