-- ==== Sys2Proof/Machine/Step.lean ====
section
/-! DEFINITION. One step: take the next whole command frame and answer it (spec/30_encoding.md R40, R48), or take a
reset event (spec/70_reset_and_hazards.md R150), or wait (spec/60_exceptions.md R141). -/

namespace Sys2Proof.Machine

/-- One step of the machine (R40): total, and it never stops. -/
def step (s : State) : Host.Outcome State Fault Refusal :=
  match fetch s with
  | .command i n => exec i (consume n s)
  | .illegal n => answerIllegal (consume n s)
  | .reset n => .next (resetEvent (consume (n + 1) s))
  | .idle => .next s

/-- The same arrivals, with the first reset event catching no more than the bytes before it in the list, `before` of
which are already counted: bytes put in front are then not caught by it (R150; log 4). -/
def clipLost (before : Nat) : List Arrival → List Arrival
  | .byte b :: rest => .byte b :: clipLost (before + 1) rest
  | .reset lost :: rest => .reset (min lost before) :: rest
  | [] => []

/-- `s` with the frame of an opcode-table row at the front of what has arrived, so that the next step runs it
(log 6). -/
def State.withFetchWord (s : State) (nbits w : Nat) : State :=
  { s with input := (tableFrame nbits w).map .byte ++ clipLost 0 s.input }

end Sys2Proof.Machine
end

