-- ==== Sys2Proof/Machine/Pseudo.lean ====
section
/-! DEFINITION. The six pseudo-commands: a `KEXP` and then one mode command (spec/30_encoding.md R52). They are the
assembler's and the host's, not the core's: each is a sequence of the core's own commands. -/

namespace Sys2Proof.Machine

/-- The key a pseudo-command loads first (R52). -/
def pseudoKey : Pseudo → List Byte
  | .ecbenc key _ => key
  | .ecbdec key _ => key
  | .cbcenc key _ _ => key
  | .cbcdec key _ _ => key
  | .ctrenc key _ _ _ => key
  | .ctrdec key _ _ _ => key

/-- The mode command of a pseudo-command (R52). -/
def pseudoMode : Pseudo → Instr
  | .ecbenc _ data => .ecbe data
  | .ecbdec _ data => .ecbd data
  | .cbcenc _ iv data => .cbce iv data
  | .cbcdec _ iv data => .cbcd iv data
  | .ctrenc _ nonce iv data => .ctre nonce iv data
  | .ctrdec _ nonce iv data => .ctrd nonce iv data

/-- The two commands a pseudo-command expands to (R52). -/
def expandPseudo (p : Pseudo) : List Instr := [.kexp (pseudoKey p), pseudoMode p]

/-- Whether the response emitted between `s` and `t` says `OK` (R44). -/
def answeredOk (s t : State) : Bool := (t.output.drop s.output.length).head? == some (statusCode .ok)

/-- Run a pseudo-command: the mode command is sent only if the `KEXP` answered OK (R52). -/
def runPseudo (p : Pseudo) (s : State) : Result :=
  match exec (.kexp (pseudoKey p)) s with
  | .next t => if answeredOk s t then exec (pseudoMode p) t else .next t
  | .fault r => .fault r
  | .refused r => .refused r

end Sys2Proof.Machine
end

