-- ==== Sys2Proof/Machine/Assembler.lean ====
section
/-! DEFINITION. The assembler syntax (spec/30_encoding.md R51, R52): one line of text to the frames it stands for, and
a response to the text that writes it. Purely notational (spec/92_eei_decisions.md D20): the machine does not use it. -/

namespace Sys2Proof.Machine

/-! ### Values -/

/-- The value of a hexadecimal digit, letter case ignored (R51). -/
def hexDigit (c : Char) : Option Nat :=
  if '0' ≤ c ∧ c ≤ '9' then some (c.toNat - '0'.toNat)
  else if 'a' ≤ c ∧ c ≤ 'f' then some (c.toNat - 'a'.toNat + 10)
  else if 'A' ≤ c ∧ c ≤ 'F' then some (c.toNat - 'A'.toNat + 10)
  else none

/-- An even number of hexadecimal digits, possibly none, first byte first (R51). -/
def hexBytes : List Char → Option (List Byte)
  | [] => some []
  | [_] => none
  | c :: d :: rest =>
    match hexDigit c, hexDigit d, hexBytes rest with
    | some h, some l, some bs => some (BitVec.ofNat 8 (16 * h + l) :: bs)
    | _, _, _ => none

/-- The rest of a quoted string: printable ASCII, one byte a character, up to the closing quote, which ends the value
(R51). -/
def asciiBytes : List Char → Option (List Byte)
  | [] => none
  | c :: rest =>
    if c = '"' then if rest = [] then some [] else none
    else if 0x20 ≤ c.toNat ∧ c.toNat ≤ 0x7e then (asciiBytes rest).map (BitVec.ofNat 8 c.toNat :: ·)
    else none

/-- `<bytes>`: hexadecimal digits or a quoted string (R51). -/
def bytesValue (cs : List Char) : Option (List Byte) :=
  match cs with
  | '"' :: rest => asciiBytes rest
  | _ => hexBytes cs

/-! ### Lines -/

/-- Drop the spaces at both ends. -/
def trim (cs : List Char) : List Char :=
  ((cs.dropWhile (· == ' ')).reverse.dropWhile (· == ' ')).reverse

/-- Cut at the commas that stand outside quotes; `cur` is the piece so far, backwards. -/
def splitCommas (quoted : Bool) (cur : List Char) : List Char → List (List Char)
  | [] => [cur.reverse]
  | c :: cs =>
    if c = '"' then splitCommas (!quoted) (c :: cur) cs
    else if c = ',' ∧ quoted = false then cur.reverse :: splitCommas quoted [] cs
    else splitCommas quoted (c :: cur) cs

/-- `name=<bytes>` (R51). -/
def assignment (cs : List Char) : Option (List Char × List Byte) :=
  let cs := trim cs
  match cs.dropWhile (· != '=') with
  | _ :: value => (bytesValue value).map fun v => (cs.takeWhile (· != '='), v)
  | [] => none

/-- All of a list's values, or none if one is missing. -/
def allSome {α : Type} : List (Option α) → Option (List α)
  | [] => some []
  | none :: _ => none
  | some a :: rest => (allSome rest).map (a :: ·)

/-- The assignments of an operand list, which may be empty (R51). -/
def assignments (cs : List Char) : Option (List (List Char × List Byte)) :=
  if trim cs = [] then some [] else allSome ((splitCommas false [] cs).map assignment)

/-- The names may be given in any order, each at most once, and no others (log 20). -/
def namesOk (allowed : List String) (given : List (List Char × List Byte)) : Bool :=
  let names := given.map Prod.fst
  names.all (fun n => (allowed.map String.toList).contains n) && decide names.Nodup

/-- The value given to a name, the empty string where the name is not written (R51). -/
def valueOf (given : List (List Char × List Byte)) (name : String) : List Byte :=
  ((given.find? fun g => g.1 == name.toList).map Prod.snd).getD []

/-- The mnemonic of a row, letter for letter (R43). -/
def mnemonicText : Op → String
  | .kexp => "KEXP"
  | .benc => "BENC"
  | .bdec => "BDEC"
  | .ecbe => "ECBE"
  | .ecbd => "ECBD"
  | .cbce => "CBCE"
  | .cbcd => "CBCD"
  | .ctre => "CTRE"
  | .ctrd => "CTRD"

/-- The operand names of a row, for A, B and D; none where the row does not use the operand (R51). -/
def operandNames : Op → Option String × Option String × Option String
  | .kexp => (some "key", none, none)
  | .benc => (none, none, some "data")
  | .bdec => (none, none, some "data")
  | .ecbe => (none, none, some "data")
  | .ecbd => (none, none, some "data")
  | .cbce => (some "iv", none, some "data")
  | .cbcd => (some "iv", none, some "data")
  | .ctre => (some "nonce", some "iv", some "data")
  | .ctrd => (some "nonce", some "iv", some "data")

/-- The value of an operand that a row may not use. -/
def optionalValue (given : List (List Char × List Byte)) : Option String → List Byte
  | some name => valueOf given name
  | none => []

/-- A command line's frame fields, the lengths not checked against R50 (R51). -/
def commandSpec (o : Op) (given : List (List Char × List Byte)) : Option FrameSpec :=
  let (na, nb, nd) := operandNames o
  if namesOk (na.toList ++ nb.toList ++ nd.toList) given then
    some { op := opcode o, rsv := 0, a := optionalValue given na, b := optionalValue given nb,
           d := optionalValue given nd }
  else none

/-- A `<byte>` field of `.frame`, 0 where omitted (R51). DESIGN CHOICE (log 20): R51 does not define `<byte>`; it is read
as a `<bytes>` value of one byte, in hexadecimal or as one quoted character, and a field written with the empty string is
read as an omitted one, 0. -/
def byteField (given : List (List Char × List Byte)) (name : String) : Option Byte :=
  match valueOf given name with
  | [] => some 0
  | [b] => some b
  | _ => none

/-- A `.frame` line's fields: any header at all (R51). -/
def directiveSpec (given : List (List Char × List Byte)) : Option FrameSpec :=
  if namesOk ["op", "rsv", "a", "b", "d"] given then
    match byteField given "op", byteField given "rsv" with
    | some op, some rsv =>
      some { op := op, rsv := rsv, a := valueOf given "a", b := valueOf given "b", d := valueOf given "d" }
    | _, _ => none
  else none

/-- The pseudo-command a mnemonic and its operands stand for (R52). -/
def pseudoLine (mnemonic : String) (given : List (List Char × List Byte)) : Option Pseudo :=
  let v := valueOf given
  match mnemonic with
  | "ECBENC" => if namesOk ["key", "data"] given then some (.ecbenc (v "key") (v "data")) else none
  | "ECBDEC" => if namesOk ["key", "data"] given then some (.ecbdec (v "key") (v "data")) else none
  | "CBCENC" => if namesOk ["key", "iv", "data"] given then some (.cbcenc (v "key") (v "iv") (v "data")) else none
  | "CBCDEC" => if namesOk ["key", "iv", "data"] given then some (.cbcdec (v "key") (v "iv") (v "data")) else none
  | "CTRENC" =>
    if namesOk ["key", "nonce", "iv", "data"] given then
      some (.ctrenc (v "key") (v "nonce") (v "iv") (v "data")) else none
  | "CTRDEC" =>
    if namesOk ["key", "nonce", "iv", "data"] given then
      some (.ctrdec (v "key") (v "nonce") (v "iv") (v "data")) else none
  | _ => none

/-- The frame of a line's fields; an operand too long for its length field has none (R41, log 20). -/
def specFrame (f : FrameSpec) : Option (List Byte) :=
  if f.a.length ≤ Config.maxShort ∧ f.b.length ≤ Config.maxShort ∧ f.d.length ≤ Config.maxData then
    some (rawFrame f.op f.rsv f.a f.b f.d)
  else none

/-- The frame of a command (R41, log 20). -/
def commandFrame (i : Instr) : Option (List Byte) := if wellFormed i then some (encode i) else none

/-- The frames one line of text stands for: one for a command or `.frame`, two for a pseudo-command (R51, R52). -/
def assembleLine (line : String) : Option (List (List Byte)) :=
  let cs := trim line.toList
  let mnemonic := cs.takeWhile (· != ' ')
  match assignments (cs.dropWhile (· != ' ')) with
  | none => none
  | some given =>
    if mnemonic = ".frame".toList then ((directiveSpec given).bind specFrame).map fun f => [f]
    else
      match allOps.find? fun o => (mnemonicText o).toList == mnemonic with
      | some o => ((commandSpec o given).bind specFrame).map fun f => [f]
      | none =>
        match pseudoLine (String.ofList mnemonic) given with
        | some p => allSome ((expandPseudo p).map commandFrame)
        | none => none

/-! ### Writing a response -/

/-- The name of a status (R130). -/
def statusText : Status → String
  | .ok => "OK"
  | .error .invalidKeySize => "InvalidKeySize"
  | .error .invalidBlockSize => "InvalidBlockSize"
  | .error .invalidIvSize => "InvalidIvSize"
  | .error .noKey => "NoKey"
  | .error .illegalCommand => "IllegalCommand"

/-- Two hexadecimal digits of a byte, first the high one. -/
def byteText (b : Byte) : List Char := [Nat.digitChar (b.toNat / 16), Nat.digitChar (b.toNat % 16)]

/-- `-> <STATUS name> [<bytes>]` (R51). -/
def responseText (st : Status) (out : List Byte) : List Char :=
  "-> ".toList ++ (statusText st).toList ++ if out = [] then [] else ' ' :: out.flatMap byteText

end Sys2Proof.Machine
end

