-- ==== Sys2Proof/Safety.lean ====
section
/-! DEFINITION. The terms claims about AESCORE are stated in: what a held key is, the invariant of the machine, what a
response says, what of the state the host can see, and serial runs. -/

namespace Sys2Proof.Machine

/-! ### A held key (spec/10_state.md R16, spec/42_key_schedule.md R92, R93) -/

/-- The words of an encryption table for a key of `nk` words and `nr` rounds, by the recurrence of R92. -/
def EncryptionWords (key : List Byte) (nk nr : Nat) (ek : Nat → Word) : Prop :=
  (∀ i, i < nk → ek i = packWord (byteOf key (4 * i)) (byteOf key (4 * i + 1)) (byteOf key (4 * i + 2))
      (byteOf key (4 * i + 3))) ∧
  (∀ i, nk ≤ i → i < 4 * (nr + 1) →
    (i % nk = 0 →
      ek i = ek (i - nk) ^^^ (subWord (rotWord (ek (i - 1))) ^^^ ((rcon (i / nk - 1)).setWidth 32 <<< 24))) ∧
    (i % nk = 4 → 6 < nk → ek i = ek (i - nk) ^^^ subWord (ek (i - 1))) ∧
    (i % nk ≠ 0 → ¬ (i % nk = 4 ∧ 6 < nk) → ek i = ek (i - nk) ^^^ ek (i - 1)))

/-- The words of the decryption table for an encryption table of `nr` rounds (R93). -/
def DecryptionWords (nr : Nat) (ek dk : Nat → Word) : Prop :=
  ∀ i, i < 4 * (nr + 1) → (4 ≤ i ∧ i < 4 * nr → dk i = invMixColumn (ek i)) ∧ (i < 4 ∨ 4 * nr ≤ i → dk i = ek i)

/-- The key slot holds the schedule of `key` (R16). -/
def KeyHeld (key : List Byte) (k : KeySlot) : Prop :=
  (key.length = 16 ∨ key.length = 24 ∨ key.length = 32) ∧
  k.kv = true ∧ k.nk.toNat = key.length / 4 ∧ k.nr.toNat = key.length / 4 + 6 ∧
  EncryptionWords key (key.length / 4) (key.length / 4 + 6) k.ekWord ∧
  DecryptionWords (key.length / 4 + 6) k.ekWord k.dkWord

/-- Whenever `KV = 1` there is a key whose schedule the slot holds (R16). -/
def KeyInv (s : State) : Prop := s.slot.kv = true → ∃ key, KeyHeld key s.slot

/-- The operand and output buffers are no longer than R10 lets them be. -/
def BufferInv (s : State) : Prop :=
  s.work.opa.length ≤ 255 ∧ s.work.opb.length ≤ 255 ∧ s.work.opd.length ≤ 4294967295 ∧
  s.work.out.length ≤ 4294967295

/-- The invariant every step keeps. -/
def Inv (s : State) : Prop := KeyInv s ∧ BufferInv s

/-! ### Responses -/

/-- Between `s` and `t` the core emitted one response frame and took nothing further of what has arrived. -/
def Answered (s t : State) (st : Status) (out : List Byte) : Prop :=
  t.output = s.output ++ responseFrame st out ∧ t.input = s.input

/-- The `STATUS` byte of the response emitted between `s` and `t` (R44). -/
def responseStatus (s t : State) : Option Byte := (t.output.drop s.output.length).head?

/-- Answered, and the persistent state is as it was: what every command but a successful `KEXP` does (R17). -/
def AnsweredOnly (s t : State) (st : Status) (out : List Byte) : Prop := Answered s t st out ∧ t.slot = s.slot

/-- The header-only response of an error: its code and seven zero bytes (R44, R45, R132). -/
def errorFrame (code : Byte) : List Byte := [code, 0, 0, 0, 0, 0, 0, 0]

/-! ### What the host can see (spec/10_state.md R18, R23) -/

/-- Two key slots no command can tell apart: `KV` is the same, and with a key held so are `NK`, `NR` and the schedule
words the key has (R16, R31). -/
def SameKey (k l : KeySlot) : Prop :=
  k.kv = l.kv ∧
  (k.kv = true → k.nk = l.nk ∧ k.nr = l.nr ∧
    ∀ i, i < 4 * (k.nr.toNat + 1) → k.ekWord i = l.ekWord i ∧ k.dkWord i = l.dkWord i)

/-! ### Serial runs (spec/20_memory.md R35) -/

/-- What one whole frame asks of the core: a command, or a frame that is an illegal command. -/
inductive Request where
  | command (i : Instr)
  | illegal (h : Header) (operands : List Byte)
deriving DecidableEq, Repr

/-- The bytes of a request's frame (R41, R42). -/
def Request.frame : Request → List Byte
  | .command i => encode i
  | .illegal h operands => headerToBytes h ++ operands

/-- The frame is whole and well delimited: the command's operands fit their fields; the illegal header matches no row and
its operand bytes are as many as it says (R41, R46, R48). -/
def Request.WellDelimited : Request → Prop
  | .command i => wellFormed i = true
  | .illegal h operands => (∃ why, decodeHeader h = .error why) ∧ operands.length = operandBytes h

/-- What a request does: the command's meaning, or the answer to an illegal command. -/
def answer (r : Request) (s : State) : Result :=
  match r with
  | .command i => exec i s
  | .illegal _ _ => answerIllegal s

/-- Answer requests one after the other, each from the state the one before it left. -/
def answerAll : List Request → State → Result
  | [], s => .next s
  | r :: rest, s =>
    match answer r s with
    | .next t => answerAll rest t
    | .fault e => .fault e
    | .refused e => .refused e

end Sys2Proof.Machine
end

