-- ==== Sys2Proof/Certificates/Slice0/Obligations.lean ====
section
/-! DEFINITION. The statements for the provers. Each docstring names the rules of spec/ it formalises. -/

open Sys2Proof Sys2Proof.Machine

/-! ### Encoding -/

/-- Decoding the frame of a well-formed command gives that command back, with every operand, whatever bytes follow
(R41, R42, R43, R46). -/
def Obligations.DecodeInvertsEncode : Prop :=
  ∀ (i : Instr) (rest : List Byte), wellFormed i = true →
    decode (encode i ++ rest) = .command i (encode i).length

/-- A command has one encoding only: whatever decodes to a command is well formed, and the bytes taken are exactly the
bytes the encoder writes for it (R41, R46, D8). -/
def Obligations.EncodeInvertsDecode : Prop :=
  ∀ (bytes : List Byte) (i : Instr) (n : Nat), decode bytes = .command i n →
    wellFormed i = true ∧ n = (encode i).length ∧ bytes.take n = encode i

/-- R46: a header decodes to a command exactly when it matches that row's mask and match; no header matches two rows;
a header that matches no row executes nothing and is answered `IllegalCommand`. -/
def Obligations.HeaderDecodesByMaskAndMatch : Prop :=
  (∀ (h : BitVec 64) (o : Op), decodeHeader (headerFields h) = .ok o ↔ h &&& opMask o = opMatch o) ∧
  (∀ (h : BitVec 64) (o p : Op), h &&& opMask o = opMatch o → h &&& opMask p = opMatch p → o = p) ∧
  (∀ (h : BitVec 64) (operands more : List Byte) (s : State),
    (∀ o : Op, h &&& opMask o ≠ opMatch o) →
    operands.length = operandBytes (headerFields h) →
    bytesInTime s.input = headerToBytes (headerFields h) ++ operands ++ more →
    ∃ t, step s = .next t ∧ t.slot = s.slot ∧ t.input = s.input.drop (frameLength (headerFields h)) ∧
      t.output = s.output ++ errorFrame 0x05)

/-- Frames written out byte by byte from spec/30_encoding.md section 8 and spec/95_test_vectors.md section 2.9 decode to
the commands they stand for, or are illegal for the reason given there. -/
def Obligations.SampleFramesDecode : Prop :=
  decode [0x01, 0, 0x10, 0, 0, 0, 0, 0, 0x00, 0x01, 0x02, 0x03, 0x04, 0x05, 0x06, 0x07, 0x08, 0x09, 0x0a, 0x0b, 0x0c,
      0x0d, 0x0e, 0x0f]
    = .command (.kexp [0x00, 0x01, 0x02, 0x03, 0x04, 0x05, 0x06, 0x07, 0x08, 0x09, 0x0a, 0x0b, 0x0c, 0x0d, 0x0e, 0x0f])
        24 ∧
  decode [0x40, 0, 4, 8, 0, 0, 0, 0x10, 0, 0, 0, 0x30, 0, 0, 0, 0, 0, 0, 0, 0, 0x53, 0x69, 0x6e, 0x67, 0x6c, 0x65, 0x20,
      0x62, 0x6c, 0x6f, 0x63, 0x6b, 0x20, 0x6d, 0x73, 0x67]
    = .command (.ctre [0, 0, 0, 0x30] [0, 0, 0, 0, 0, 0, 0, 0]
        [0x53, 0x69, 0x6e, 0x67, 0x6c, 0x65, 0x20, 0x62, 0x6c, 0x6f, 0x63, 0x6b, 0x20, 0x6d, 0x73, 0x67]) 36 ∧
  decode [0x20, 0, 0, 0, 0, 0, 0, 0] = .command (.ecbe []) 8 ∧
  decode [0x02, 0, 0, 0, 0, 0, 0, 0] = .illegal (.unknownOp 0x02) 8 ∧
  decode ([0x10, 0, 1, 0, 0, 0, 0, 0x10] ++ List.replicate 17 0) = .illegal (.unusedOperandA 1) 25

/-- R47: every reserved encoding is an illegal command, whatever the state: an opcode that is none of the nine, a
nonzero reserved byte, a nonzero length of an operand the command does not use. What any step emits has the `ZERO` field
zero, whatever came in. -/
def Obligations.ReservedEncodingsAreIllegal : Prop :=
  (∀ (h : Header) (operands more : List Byte) (s : State),
    ((h.op ≠ 0x01 ∧ h.op ≠ 0x10 ∧ h.op ≠ 0x11 ∧ h.op ≠ 0x20 ∧ h.op ≠ 0x21 ∧ h.op ≠ 0x30 ∧ h.op ≠ 0x31 ∧ h.op ≠ 0x40 ∧
        h.op ≠ 0x41) ∨
      h.rsv ≠ 0 ∨
      (h.op = 0x01 ∧ (h.blen ≠ 0 ∨ h.dlen ≠ 0)) ∨
      ((h.op = 0x10 ∨ h.op = 0x11 ∨ h.op = 0x20 ∨ h.op = 0x21) ∧ (h.alen ≠ 0 ∨ h.blen ≠ 0)) ∨
      ((h.op = 0x30 ∨ h.op = 0x31) ∧ h.blen ≠ 0)) →
    operands.length = h.alen.toNat + h.blen.toNat + h.dlen.toNat →
    bytesInTime s.input = headerToBytes h ++ operands ++ more →
    ∃ t, step s = .next t ∧ t.slot = s.slot ∧ t.input = s.input.drop (8 + operands.length) ∧
      t.output = s.output ++ errorFrame 0x05) ∧
  (∀ s t : State, step s = .next t →
    t.output = s.output ∨ ∃ (st : Byte) (rest : List Byte), t.output = s.output ++ (st :: 0 :: 0 :: 0 :: rest))

/-- R136: `IllegalCommand` is the answer exactly when the header matches no row, whatever `KV` is, and the frame's
operand bytes are consumed. -/
def Obligations.IllegalCommandExactlyWhenNoRow : Prop :=
  ∀ (h : BitVec 64) (operands more : List Byte) (s : State),
    operands.length = operandBytes (headerFields h) →
    bytesInTime s.input = headerToBytes (headerFields h) ++ operands ++ more →
    ∃ t, step s = .next t ∧ t.input = s.input.drop (8 + operands.length) ∧
      (responseStatus s t = some 0x05 ↔ ∀ o : Op, h &&& opMask o ≠ opMatch o)

/-- R48: an illegal command still consumes its whole frame by the lengths in its header and is then answered; a frame
cut short never begins to execute: no response, no change of state. -/
def Obligations.CutFrameWaitsIllegalFrameConsumed : Prop :=
  (∀ (h : Header) (operands more : List Byte) (s : State) (why : Reject),
    decodeHeader h = .error why →
    operands.length = h.alen.toNat + h.blen.toNat + h.dlen.toNat →
    bytesInTime s.input = headerToBytes h ++ operands ++ more →
    ∃ t, step s = .next t ∧ t.input = s.input.drop (8 + operands.length) ∧ t.slot = s.slot ∧ t.output = s.output ++ errorFrame 0x05) ∧
  (∀ (h : Header) (operands : List Byte) (s : State),
    operands.length < h.alen.toNat + h.blen.toNat + h.dlen.toNat →
    s.input = (headerToBytes h ++ operands).map .byte →
    step s = .next s) ∧
  (∀ (bytes : List Byte) (s : State), bytes.length < 8 → s.input = bytes.map .byte → step s = .next s)

/-! ### The step -/

/-- When the bytes the core is in time to take begin with the frame of a well-formed command, the step is that command's
meaning on the state with the frame taken; likewise whenever the decoder finds a command there. With no reset event
among the arrivals these are all of them, and a reset event that catches bytes (log 4) takes those away. -/
def Obligations.StepRunsDecodedCommand : Prop :=
  (∀ (s : State) (i : Instr) (more : List Byte), wellFormed i = true →
    bytesInTime s.input = encode i ++ more →
    step s = exec i { s with input := s.input.drop (encode i).length }) ∧
  (∀ bytes : List Byte, bytesInTime (bytes.map .byte) = bytes) ∧
  (∀ (bytes : List Byte) (lost : Nat) (rest : List Arrival),
    bytesInTime (bytes.map .byte ++ .reset lost :: rest) = bytes.take (bytes.length - lost)) ∧
  (∀ (s : State) (i : Instr) (n : Nat), decode (bytesInTime s.input) = .command i n →
    step s = exec i { s with input := s.input.drop n })

/-- The step is total; where a whole command frame has arrived in time it takes exactly that frame, legal or not, and
emits exactly one whole response frame (R40); where none has, it waits (R48; log 7: R40 counts only frames as steps, and
the waiting step is the model's) or takes a reset event (R150; log 4), and emits nothing. -/
def Obligations.StepAnswersEveryFrame : Prop :=
  (∀ s : State, ∃ t, step s = .next t) ∧
  (∀ (s t : State) (n : Nat),
    ((∃ i, decode (bytesInTime s.input) = .command i n) ∨ (∃ why, decode (bytesInTime s.input) = .illegal why n)) →
    step s = .next t →
    t.input = s.input.drop n ∧ ∃ st out, t.output = s.output ++ responseFrame st out) ∧
  (∀ s t : State, decode (bytesInTime s.input) = .incomplete → step s = .next t → t.output = s.output)

/-- A sequence of whole frames, commands and illegal commands in any order, takes effect in order, each from the state all
earlier ones left and from no later one; each frame starts at the byte after the one before it (R35, R12, R48). -/
def Obligations.FramesRunInOrder : Prop :=
  ∀ (rs : List Request) (more : List Byte) (s : State), (∀ r ∈ rs, r.WellDelimited) →
    bytesInTime s.input = rs.flatMap Request.frame ++ more →
    Sys2Proof.core.run rs.length s =
      answerAll rs { s with input := s.input.drop (rs.flatMap Request.frame).length }

/-! ### Responses -/

/-- R44, R45: every command completes, and its response frame is `STATUS`, three zero bytes, `OLEN` big-endian and the
output; an error has no output; `OK` has none for `KEXP`, 16 bytes for `BENC` and `BDEC`, `DLEN` bytes for a mode. An
illegal command is answered by a header alone, with `OLEN = 0`. -/
def Obligations.ResponseFrameShape : Prop :=
  (∀ (i : Instr) (s : State), wellFormed i = true →
    ∃ t st out, exec i s = .next t ∧
      t.output = s.output ++ ([statusCode st, 0, 0, 0] ++ be32 (BitVec.ofNat 32 out.length) ++ out) ∧
      out.length < 2 ^ 32 ∧
      (st ≠ .ok → out = []) ∧
      (st = .ok → out.length = match i with
        | .kexp _ => 0
        | .benc _ => 16
        | .bdec _ => 16
        | .ecbe data => data.length
        | .ecbd data => data.length
        | .cbce _ data => data.length
        | .cbcd _ data => data.length
        | .ctre _ _ data => data.length
        | .ctrd _ _ data => data.length)) ∧
  (∀ (s : State) (why : Reject) (n : Nat), decode (bytesInTime s.input) = .illegal why n →
    ∃ t, step s = .next t ∧ t.output = s.output ++ [0x05, 0, 0, 0, 0, 0, 0, 0])

/-- R130: the six status codes, and no step emits a response with any other. -/
def Obligations.OnlySixStatusCodes : Prop :=
  (statusCode .ok = 0x00 ∧ statusCode (.error .invalidKeySize) = 0x01 ∧ statusCode (.error .invalidBlockSize) = 0x02 ∧
    statusCode (.error .invalidIvSize) = 0x03 ∧ statusCode (.error .noKey) = 0x04 ∧
    statusCode (.error .illegalCommand) = 0x05) ∧
  (∀ (s t : State) (b : Byte), step s = .next t → responseStatus s t = some b → b.toNat ≤ 5)

/-- R50: the checks of each command in the order they are made; the first that fails is the answer, the answer is `OK`
when none does, and every command completes. -/
def Obligations.ChecksInOrder : Prop :=
  (∀ (key : List Byte) (s : State), ∃ t, exec (.kexp key) s = .next t ∧ responseStatus s t = some
    (if key.length = 16 ∨ key.length = 24 ∨ key.length = 32 then 0x00 else 0x01)) ∧
  (∀ (data : List Byte) (s : State) (i : Instr), i = .benc data ∨ i = .bdec data →
    ∃ t, exec i s = .next t ∧ responseStatus s t = some
      (if s.slot.kv = false then 0x04 else if data.length ≠ 16 then 0x02 else 0x00)) ∧
  (∀ (data : List Byte) (s : State) (i : Instr), i = .ecbe data ∨ i = .ecbd data →
    ∃ t, exec i s = .next t ∧ responseStatus s t = some
      (if s.slot.kv = false then 0x04 else if data.length % 16 ≠ 0 then 0x02 else 0x00)) ∧
  (∀ (iv data : List Byte) (s : State) (i : Instr), i = .cbce iv data ∨ i = .cbcd iv data →
    ∃ t, exec i s = .next t ∧ responseStatus s t = some
      (if s.slot.kv = false then 0x04 else if iv.length ≠ 16 then 0x03 else if data.length % 16 ≠ 0 then 0x02
        else 0x00)) ∧
  (∀ (nonce iv data : List Byte) (s : State) (i : Instr), i = .ctre nonce iv data ∨ i = .ctrd nonce iv data →
    ∃ t, exec i s = .next t ∧ responseStatus s t = some
      (if s.slot.kv = false then 0x04 else if nonce.length ≠ 4 ∨ iv.length ≠ 8 then 0x03 else 0x00))

/-- R133: `InvalidKeySize` is answered by `KEXP` exactly when the key is not 16, 24 or 32 bytes. -/
def Obligations.InvalidKeySizeExactly : Prop :=
  ∀ (i : Instr) (s : State), ∃ t, exec i s = .next t ∧
    (responseStatus s t = some 0x01 ↔
      ∃ key, i = .kexp key ∧ key.length ≠ 16 ∧ key.length ≠ 24 ∧ key.length ≠ 32)

/-- R134: `InvalidBlockSize` is answered exactly in the cases (a), (b) and (c). -/
def Obligations.InvalidBlockSizeExactly : Prop :=
  ∀ (i : Instr) (s : State), ∃ t, exec i s = .next t ∧
    (responseStatus s t = some 0x02 ↔
      (∃ data, (i = .benc data ∨ i = .bdec data) ∧ s.slot.kv = true ∧ data.length ≠ 16) ∨
      (∃ data, (i = .ecbe data ∨ i = .ecbd data) ∧ s.slot.kv = true ∧ data.length % 16 ≠ 0) ∨
      (∃ iv data, (i = .cbce iv data ∨ i = .cbcd iv data) ∧ s.slot.kv = true ∧ iv.length = 16 ∧
        data.length % 16 ≠ 0))

/-- R135: `InvalidIvSize` is answered exactly in the cases (a) and (b). -/
def Obligations.InvalidIvSizeExactly : Prop :=
  ∀ (i : Instr) (s : State), ∃ t, exec i s = .next t ∧
    (responseStatus s t = some 0x03 ↔
      (∃ iv data, (i = .cbce iv data ∨ i = .cbcd iv data) ∧ s.slot.kv = true ∧ iv.length ≠ 16) ∨
      (∃ nonce iv data, (i = .ctre nonce iv data ∨ i = .ctrd nonce iv data) ∧ s.slot.kv = true ∧
        (nonce.length ≠ 4 ∨ iv.length ≠ 8)))

/-- A cipher command while `KV = 0` is answered `NoKey` before any other check and does nothing else; `KEXP` is never
answered so; no command is once a key is held (R131). -/
def Obligations.NoKeyBeforeAnyOtherCheck : Prop :=
  (∀ (i : Instr) (s : State), (∀ key, i ≠ .kexp key) → s.slot.kv = false →
    ∃ t, exec i s = .next t ∧ t.slot = s.slot ∧ t.input = s.input ∧ t.output = s.output ++ errorFrame 0x04) ∧
  (∀ (i : Instr) (s : State), ∃ t, exec i s = .next t ∧ (responseStatus s t = some 0x04 ↔
    (∀ key, i ≠ .kexp key) ∧ s.slot.kv = false))

/-- R132: a step that answers with an error emits the 8-byte header of that error's code and nothing else, and leaves
the persistent state exactly as it was. -/
def Obligations.ErrorsHaveNoEffect : Prop :=
  ∀ (s t : State) (e : ErrorKind), step s = .next t → responseStatus s t = some (statusCode (.error e)) →
    t.output = s.output ++ errorFrame (statusCode (.error e)) ∧ t.slot = s.slot

/-! ### The key slot -/

/-- R92, R93: `KEXP` of a key of legal length completes, answers `OK` with no output, and leaves the slot holding the
expansion of that key: `KV`, `NK`, `NR`, every word of `EK` by the recurrence and every word of `DK` from it. -/
def Obligations.KexpLoadsSchedule : Prop :=
  ∀ (key : List Byte) (s : State), key.length = 16 ∨ key.length = 24 ∨ key.length = 32 →
    ∃ t, exec (.kexp key) s = .next t ∧ KeyHeld key t.slot ∧ AnsweredOnly { s with slot := t.slot } t .ok [] ∧
      t.output = s.output ++ errorFrame 0x00

/-- R95: a `KEXP` of a wrong key length changes no persistent field, answers the error header alone and completes; an
illegal `KEXP` frame changes none either, whatever `ALEN` is. -/
def Obligations.FailedKexpKeepsKey : Prop :=
  (∀ (key : List Byte) (s : State), key.length ≠ 16 → key.length ≠ 24 → key.length ≠ 32 →
    ∃ t, exec (.kexp key) s = .next t ∧ t.slot = s.slot ∧ t.input = s.input ∧ t.output = s.output ++ errorFrame 0x01) ∧
  (∀ (h : Header) (operands more : List Byte) (s : State),
    h.op = 0x01 → h.blen ≠ 0 ∨ h.dlen ≠ 0 →
    operands.length = h.alen.toNat + h.blen.toNat + h.dlen.toNat →
    bytesInTime s.input = headerToBytes h ++ operands ++ more →
    ∃ t, step s = .next t ∧ t.slot = s.slot ∧ t.output = s.output ++ errorFrame 0x05)

/-- R17: no command other than a successful `KEXP` writes any persistent field, whether it succeeds or fails; a
successful `KEXP` replaces all of it. No command touches what has arrived or what was emitted before. -/
def Obligations.OnlySuccessfulKexpWritesKeySlot : Prop :=
  ∀ (i : Instr) (s t : State), exec i s = .next t →
    (t.slot = s.slot ∨
      ∃ key, i = .kexp key ∧ responseStatus s t = some 0x00 ∧ KeyHeld key t.slot) ∧
    (∀ key, i = .kexp key → responseStatus s t = some 0x00 → KeyHeld key t.slot) ∧
    ((∀ key, i ≠ .kexp key) → t.slot = s.slot) ∧
    (responseStatus s t ≠ some 0x00 → t.slot = s.slot) ∧
    t.input = s.input ∧ ∃ response, t.output = s.output ++ response

/-- Every step keeps the invariant: whenever `KV = 1` the slot holds the schedule of some key of legal length (R16), and
the buffers keep their bounds (R10). -/
def Obligations.StepKeepsKeyInvariant : Prop :=
  ∀ s t : State, Inv s → step s = .next t → Inv t

/-- The machine right after reset has `KV = 0` (R24) and satisfies the invariant. -/
def Obligations.ResetHasNoKeyAndInvariant : Prop := State.reset.slot.kv = false ∧ Inv State.reset

/-- Issuing the same successful `KEXP` twice leaves what issuing it once leaves, as far as any command can tell; and
what it leaves does not depend on the key held before (R31, R94, R97). -/
def Obligations.KexpDependsOnKeyOnly : Prop :=
  ∀ (key : List Byte) (r q s t u : State), key.length = 16 ∨ key.length = 24 ∨ key.length = 32 →
    exec (.kexp key) r = .next s → exec (.kexp key) s = .next t → exec (.kexp key) q = .next u →
    SameKey s.slot t.slot ∧ SameKey s.slot u.slot

/-! ### The cipher commands -/

/-- R103, R104: `BENC` and `BDEC` complete; with a key and a block of 16 bytes they answer `OK` and the block put through
`Encrypt`, or `Decrypt`; without a key `NoKey`; with another length `InvalidBlockSize`; no persistent field changes. -/
def Obligations.SingleBlockCommands : Prop :=
  ∀ (data : List Byte) (s : State),
    (∃ t, exec (.benc data) s = .next t ∧
      (if s.slot.kv = false then AnsweredOnly s t (.error .noKey) []
        else if data.length ≠ 16 then AnsweredOnly s t (.error .invalidBlockSize) []
        else AnsweredOnly s t .ok (s.slot.encrypt data))) ∧
    (∃ t, exec (.bdec data) s = .next t ∧
      (if s.slot.kv = false then AnsweredOnly s t (.error .noKey) []
        else if data.length ≠ 16 then AnsweredOnly s t (.error .invalidBlockSize) []
        else AnsweredOnly s t .ok (s.slot.decrypt data)))

/-- R112, R113: `ECBE` and `ECBD` complete; without a key the answer is `NoKey`, with a message that is not whole blocks
`InvalidBlockSize`, otherwise `OK` and an output as long as the message whose block `j` is message block `j` put through
`Encrypt`, or `Decrypt`, by itself; no persistent field changes. -/
def Obligations.EcbTransformsEachBlock : Prop :=
  ∀ (data : List Byte) (s : State),
    (∃ t, exec (.ecbe data) s = .next t ∧
      (if s.slot.kv = false then AnsweredOnly s t (.error .noKey) []
        else if data.length % 16 ≠ 0 then AnsweredOnly s t (.error .invalidBlockSize) []
        else ∃ out, AnsweredOnly s t .ok out ∧ out.length = data.length ∧
          ∀ j, 16 * j < data.length → memRead out (16 * j) 16 = s.slot.encrypt (memRead data (16 * j) 16))) ∧
    (∃ t, exec (.ecbd data) s = .next t ∧
      (if s.slot.kv = false then AnsweredOnly s t (.error .noKey) []
        else if data.length % 16 ≠ 0 then AnsweredOnly s t (.error .invalidBlockSize) []
        else ∃ out, AnsweredOnly s t .ok out ∧ out.length = data.length ∧
          ∀ j, 16 * j < data.length → memRead out (16 * j) 16 = s.slot.decrypt (memRead data (16 * j) 16)))

/-- R114: `CBCE` completes; its errors in order are `NoKey`, `InvalidIvSize`, `InvalidBlockSize`; otherwise it answers `OK`
and an output as long as the message, with `Y_0 = Encrypt(X_0 ^ IV)` and `Y_j = Encrypt(X_j ^ Y_(j-1))`; no persistent
field changes. -/
def Obligations.CbcEncryptChainsCiphertext : Prop :=
  ∀ (iv data : List Byte) (s : State), ∃ t, exec (.cbce iv data) s = .next t ∧
    (if s.slot.kv = false then AnsweredOnly s t (.error .noKey) []
      else if iv.length ≠ 16 then AnsweredOnly s t (.error .invalidIvSize) []
      else if data.length % 16 ≠ 0 then AnsweredOnly s t (.error .invalidBlockSize) []
      else ∃ out, AnsweredOnly s t .ok out ∧ out.length = data.length ∧
        ∀ j, 16 * j < data.length → memRead out (16 * j) 16 = s.slot.encrypt
          (xorBytes (memRead data (16 * j) 16) (if j = 0 then iv else memRead out (16 * (j - 1)) 16)))

/-- R116: `CBCD` completes; its errors are those of `CBCE`; otherwise it answers `OK` and an output as long as the message,
with `Y_0 = Decrypt(X_0) ^ IV` and `Y_j = Decrypt(X_j) ^ X_(j-1)`: the chain is the ciphertext read, not the plaintext
emitted; no persistent field changes. -/
def Obligations.CbcDecryptChainsCiphertext : Prop :=
  ∀ (iv data : List Byte) (s : State), ∃ t, exec (.cbcd iv data) s = .next t ∧
    (if s.slot.kv = false then AnsweredOnly s t (.error .noKey) []
      else if iv.length ≠ 16 then AnsweredOnly s t (.error .invalidIvSize) []
      else if data.length % 16 ≠ 0 then AnsweredOnly s t (.error .invalidBlockSize) []
      else ∃ out, AnsweredOnly s t .ok out ∧ out.length = data.length ∧
        ∀ j, 16 * j < data.length → memRead out (16 * j) 16 =
          xorBytes (s.slot.decrypt (memRead data (16 * j) 16)) (if j = 0 then iv else memRead data (16 * (j - 1)) 16))

/-- `CTRE` completes (R118), and so does `CTRD` with the same response (R119, U5); without a key the answer is
`NoKey`, with a nonce not of 4 or an IV not of 8 bytes `InvalidIvSize`, otherwise `OK` and an output as long as the
message, whose block `j` is message block `j` XORed with the first bytes of `Encrypt` of the counter block for counter
value `j + 1`, as many as the block has; no persistent field changes. That the two leave one and the same state, the
transient registers included, is the model's and not the spec's: it holds because the free values left there depend on
the counter `draws` alone (log 2), and of them the spec says nothing (U3, D23). -/
def Obligations.CtrXorsKeystream : Prop :=
  ∀ (nonce iv data : List Byte) (s : State),
    ∃ t, exec (.ctre nonce iv data) s = .next t ∧ exec (.ctrd nonce iv data) s = .next t ∧
      (if s.slot.kv = false then AnsweredOnly s t (.error .noKey) []
        else if nonce.length ≠ 4 ∨ iv.length ≠ 8 then AnsweredOnly s t (.error .invalidIvSize) []
        else ∃ out, AnsweredOnly s t .ok out ∧ out.length = data.length ∧
          ∀ j, 16 * j < data.length → memRead out (16 * j) 16 =
            xorBytes (memRead data (16 * j) 16)
              ((s.slot.encrypt (nonce ++ iv ++ be32 (BitVec.ofNat 32 (j + 1)))).take (min 16 (data.length - 16 * j))))

/-- A cipher command issued twice gives the same response twice (R31). -/
def Obligations.CipherCommandsRepeat : Prop :=
  ∀ (i : Instr) (s t u : State), (∀ key, i ≠ .kexp key) → exec i s = .next t → exec i t = .next u →
    ∃ response, t.output = s.output ++ response ∧ u.output = t.output ++ response

/-- What a step emits, and what it leaves that any later command can see, depends on what has arrived and on the visible
part of the key slot only: not on the transient state, not on schedule words past the key's own, and, with no key, not
on the slot's other fields (R18, R23, R31). -/
def Obligations.HiddenStateIsNotObservable : Prop :=
  ∀ s s' t t' : State, s.input = s'.input → SameKey s.slot s'.slot → step s = .next t → step s' = .next t' →
    t.input = t'.input ∧ SameKey t.slot t'.slot ∧
    ∃ response, t.output = s.output ++ response ∧ t'.output = s'.output ++ response

/-- R122: `ECBE`, `CBCE`, `CTRE`, `CTRD`, and `BENC` (R103), read `EK` and never `DK`; `ECBD`, `CBCD`, and `BDEC` (R104),
read `DK` and never `EK`. -/
def Obligations.DirectionsReadOneTable : Prop :=
  (∀ (i : Instr) (s t : State) (dk : Vector Word 60),
    (i.op = .ecbe ∨ i.op = .cbce ∨ i.op = .ctre ∨ i.op = .ctrd ∨ i.op = .benc) → exec i s = .next t →
    ∃ u, exec i { s with slot := { s.slot with dk := dk } } = .next u ∧ u.output = t.output) ∧
  (∀ (i : Instr) (s t : State) (ek : Vector Word 60),
    (i.op = .ecbd ∨ i.op = .cbcd ∨ i.op = .bdec) → exec i s = .next t →
    ∃ u, exec i { s with slot := { s.slot with ek := ek } } = .next u ∧ u.output = t.output)

/-! ### Round trips -/

/-- With the schedule of any key of legal length, `Decrypt` inverts `Encrypt` on every 16-byte block, and `Encrypt`
inverts `Decrypt` (R102; the second half is the spec's own derivation). -/
def Obligations.DecryptInvertsEncrypt : Prop :=
  ∀ (key block : List Byte) (k : KeySlot), KeyHeld key k → block.length = 16 →
    k.decrypt (k.encrypt block) = block ∧ k.encrypt (k.decrypt block) = block

/-- `DecryptStraight` over the encryption table and `Decrypt` over the decryption table made from it are the same
function of the block (R105, the spec's own derivation). -/
def Obligations.StraightInverseAgrees : Prop :=
  ∀ (nr : Nat) (ek dk : Nat → Word) (block : List Byte), DecryptionWords nr ek dk →
    decryptBlock nr dk block = decryptStraight nr ek block

/-- ECB, CBC and CTR undo themselves: under a held key, the decrypting command sent after the encrypting one, with its
output as data and the same IV or nonce, answers `OK` and the message (R113, R115, R119; the spec's own derivations). -/
def Obligations.ModesRoundTrip : Prop :=
  ∀ (key data : List Byte) (s : State), KeyHeld key s.slot →
    (data.length % 16 = 0 → ∃ t u c, exec (.ecbe data) s = .next t ∧ Answered s t .ok c ∧
      exec (.ecbd c) t = .next u ∧ Answered t u .ok data) ∧
    (∀ iv : List Byte, iv.length = 16 → data.length % 16 = 0 → ∃ t u c, exec (.cbce iv data) s = .next t ∧
      Answered s t .ok c ∧ exec (.cbcd iv c) t = .next u ∧ Answered t u .ok data) ∧
    (∀ nonce iv : List Byte, nonce.length = 4 → iv.length = 8 → ∃ t u c, exec (.ctre nonce iv data) s = .next t ∧
      Answered s t .ok c ∧ exec (.ctrd nonce iv c) t = .next u ∧ Answered t u .ok data)

/-- A prefix of a CTR message encrypts to the prefix of its ciphertext (R118, corner cases). -/
def Obligations.CtrPrefixProperty : Prop :=
  ∀ (nonce iv data : List Byte) (k : Nat) (s t u : State) (c d : List Byte), s.slot.kv = true → nonce.length = 4 →
    iv.length = 8 → exec (.ctre nonce iv data) s = .next t → Answered s t .ok c →
    exec (.ctre nonce iv (data.take k)) s = .next u → Answered s u .ok d → d = c.take k

/-! ### The datapath -/

/-- R100: `Encrypt` passes through a state for each round: the block loaded and group 0 added; for `RND` from 1 to
`NR - 1`, `SubBytes`, `ShiftRows`, `MixColumns` and group `RND`; then `SubBytes`, `ShiftRows` and group `NR`, with no
`MixColumns`, stored. -/
def Obligations.EncryptRunsRounds : Prop :=
  ∀ (k : KeySlot) (p : List Byte), 1 ≤ k.nr.toNat →
    ∃ st : Nat → Columns,
      st 0 = addRoundKey (loadState p) k.ekWord 0 ∧
      (∀ r, 1 ≤ r → r < k.nr.toNat →
        st r = addRoundKey (mixColumns (shiftRows (subBytes (st (r - 1))))) k.ekWord r) ∧
      k.encrypt p = storeState (addRoundKey (shiftRows (subBytes (st (k.nr.toNat - 1)))) k.ekWord k.nr.toNat)

/-- R101: `Decrypt` passes through a state for each round: the block loaded and group `NR` of `DK` added; for `RND` from
`NR - 1` down to 1, `InvShiftRows`, `InvSubBytes`, `InvMixColumns` and then group `RND`; then `InvShiftRows`,
`InvSubBytes` and group 0, stored. -/
def Obligations.DecryptRunsRounds : Prop :=
  ∀ (k : KeySlot) (c : List Byte), 1 ≤ k.nr.toNat →
    ∃ st : Nat → Columns,
      st k.nr.toNat = addRoundKey (loadState c) k.dkWord k.nr.toNat ∧
      (∀ r, 1 ≤ r → r < k.nr.toNat →
        st r = addRoundKey (invMixColumns (invSubBytes (invShiftRows (st (r + 1))))) k.dkWord r) ∧
      k.decrypt c = storeState (addRoundKey (invSubBytes (invShiftRows (st 1))) k.dkWord 0)

/-- R70: byte position `r` of a packed word is its `r`-th byte, position 0 the most significant; a word is the packing of
its four bytes. -/
def Obligations.WordPacksBigEndian : Prop :=
  (∀ b0 b1 b2 b3 : Byte,
    byteAt (packWord b0 b1 b2 b3) 0 = b0 ∧ byteAt (packWord b0 b1 b2 b3) 1 = b1 ∧
    byteAt (packWord b0 b1 b2 b3) 2 = b2 ∧ byteAt (packWord b0 b1 b2 b3) 3 = b3 ∧
    (packWord b0 b1 b2 b3).toNat = b0.toNat * 2 ^ 24 + b1.toNat * 2 ^ 16 + b2.toNat * 2 ^ 8 + b3.toNat) ∧
  (∀ (w : Word) (r : Nat), r < 4 → byteAt w r = w.extractLsb' (24 - 8 * r) 8) ∧
  (∀ w : Word, packWord (byteAt w 0) (byteAt w 1) (byteAt w 2) (byteAt w 3) = w)

/-- R61: `xtime` shifts left in nine bits, XORs `0x11B` when bit 8 is set, and keeps the low byte. -/
def Obligations.XtimeReducesByPolynomial : Prop :=
  ∀ a : Byte, xtime a =
    (if (a.setWidth 9 <<< 1).getLsbD 8 then (a.setWidth 9 <<< 1) ^^^ 0x11B#9 else a.setWidth 9 <<< 1).setWidth 8

/-- `Mul` is the brute-force polynomial product reduced by `0x11B`, commutative, associative, with 0 and 1 as they should
be, and distributes over XOR (R63; distribution is the spec's own derivation). -/
def Obligations.MulIsFieldProduct : Prop :=
  (∀ a b : Byte, mul a b = mulBrute a b ∧ mul a b = mul b a ∧ mul a 0 = 0 ∧ mul a 1 = a) ∧
  (∀ a b c : Byte, mul (mul a b) c = mul a (mul b c) ∧ mul a (b ^^^ c) = mul a b ^^^ mul a c)

/-- The tables: `SBOX[b] = Affine(Inv(b))`, `Inv` is the inverse, `INVSBOX` is the inverse table, `RCON[n]` is the `n`-th
power of `x` (R64, R66, R67, R68; the affine map is the spec's supply from general knowledge, log 11). -/
def Obligations.TablesAreAffineInverse : Prop :=
  (∀ b : Byte, sbox b = affine (inv b) ∧ invSbox (sbox b) = b ∧ sbox (invSbox b) = b ∧ (b ≠ 0 → mul b (inv b) = 1)) ∧
  inv 0 = 0 ∧ rcon 0 = 1 ∧ ∀ n, n < 9 → rcon (n + 1) = xtime (rcon n)

/-- R71, R73: `SubWord` puts each byte through `SBOX` in its place; `RotWord` moves the byte at position `r + 1` to
position `r` and the first byte to the last position. -/
def Obligations.WordOperationsByLane : Prop :=
  ∀ (w : Word) (r : Nat), r < 4 →
    byteAt (subWord w) r = sbox (byteAt w r) ∧ byteAt (rotWord w) r = byteAt w ((r + 1) % 4)

/-- R76, R77: `ShiftRows` takes row `r` of column `c` from column `c + r` modulo 4, `InvShiftRows` from column `c - r`;
each undoes the other. -/
def Obligations.ShiftRowsRotatesRows : Prop :=
  (∀ (s : Columns) (c r : Nat), c < 4 → r < 4 →
    byteAt ((shiftRows s).col c) r = byteAt (s.col ((c + r) % 4)) r ∧
    byteAt ((invShiftRows s).col c) r = byteAt (s.col ((c + 4 - r) % 4)) r) ∧
  (∀ s : Columns, invShiftRows (shiftRows s) = s ∧ shiftRows (invShiftRows s) = s)

/-- `MixColumn` and `InvMixColumn` are the products by their fixed polynomials modulo `x^4+1`, byte position `r` being
the coefficient of `x^r` (R78, R79; the assignment is the spec's supply from general knowledge, log 12). -/
def Obligations.MixColumnIsPolynomialProduct : Prop :=
  ∀ (w : Word) (k : Nat), k < 4 →
    byteAt (mixColumn w) k =
      mul 0x02 (byteAt w k) ^^^ mul 0x01 (byteAt w ((k + 3) % 4)) ^^^ mul 0x01 (byteAt w ((k + 2) % 4)) ^^^
        mul 0x03 (byteAt w ((k + 1) % 4)) ∧
    byteAt (invMixColumn w) k =
      mul 0x0e (byteAt w k) ^^^ mul 0x09 (byteAt w ((k + 3) % 4)) ^^^ mul 0x0d (byteAt w ((k + 2) % 4)) ^^^
        mul 0x0b (byteAt w ((k + 1) % 4))

/-- `InvMixColumn` and `MixColumn` undo each other on every word, and both are linear over XOR (R79, R85 (a), (c), the
spec's own derivations). -/
def Obligations.MixColumnsInvertEachOther : Prop :=
  (∀ w : Word, invMixColumn (mixColumn w) = w ∧ mixColumn (invMixColumn w) = w) ∧
  (∀ u v : Word, mixColumn (u ^^^ v) = mixColumn u ^^^ mixColumn v ∧
    invMixColumn (u ^^^ v) = invMixColumn u ^^^ invMixColumn v)

/-- `SubBytes` and `ShiftRows` commute, and so do `InvSubBytes` and `InvShiftRows` (R85 (b), the spec's own
derivation). -/
def Obligations.SubBytesCommutesWithShiftRows : Prop :=
  ∀ s : Columns, shiftRows (subBytes s) = subBytes (shiftRows s) ∧
    invShiftRows (invSubBytes s) = invSubBytes (invShiftRows s)

/-- R83, R84: `LoadState` packs sixteen bytes column by column, big-endian; `StoreState` writes byte `4c + r` from byte
position `r` of column `c`; each undoes the other. -/
def Obligations.LoadStoreStateInverse : Prop :=
  (∀ x : List Byte, x.length = 16 → storeState (loadState x) = x ∧
    ∀ c, c < 4 → (loadState x).col c = packWord (byteOf x (4 * c)) (byteOf x (4 * c + 1)) (byteOf x (4 * c + 2))
      (byteOf x (4 * c + 3))) ∧
  (∀ s : Columns, (storeState s).length = 16 ∧ loadState (storeState s) = s ∧
    ∀ c r, c < 4 → r < 4 → byteOf (storeState s) (4 * c + r) = byteAt (s.col c) r)

/-- R82: `AddRoundKey` XORs word `c` with word `4g + c` of the schedule and is its own inverse. -/
def Obligations.AddRoundKeyXorsGroup : Prop :=
  ∀ (s : Columns) (sched : Nat → Word) (g : Nat),
    (∀ c, c < 4 → (addRoundKey s sched g).col c = s.col c ^^^ sched (4 * g + c)) ∧
    addRoundKey (addRoundKey s sched g) sched g = s

/-! ### Reset and boot -/

/-- A reset event that leaves no whole frame in time, whatever bytes of whole or unfinished frames it catches, forgets them
all, emits no response and leaves `KV = 0`, so that every cipher command is answered `NoKey` from there (R150, R151; the
event among the arrivals, with the number of bytes it catches, is the model's form of it, log 4). -/
def Obligations.ResetEventDropsKeyAndPartialFrame : Prop :=
  ∀ (bytes : List Byte) (lost : Nat) (rest : List Arrival) (s : State),
    decode (bytes.take (bytes.length - lost)) = .incomplete →
    s.input = bytes.map .byte ++ .reset lost :: rest →
    ∃ t, step s = .next t ∧ t.slot.kv = false ∧ t.input = rest ∧ t.output = s.output ∧
      ∀ i : Instr, (∀ key, i ≠ .kexp key) → ∃ u, exec i t = .next u ∧ u.output = t.output ++ errorFrame 0x04

/-- A whole frame and then a reset event: an event that catches any byte of the frame strikes while its command is in
progress, which is abandoned without a response; one that catches none strikes after the response (R150; the number of
bytes caught is the model's form of the time the event strikes, log 4). -/
def Obligations.ResetAbandonsCommandInProgress : Prop :=
  ∀ (h : Header) (operands : List Byte) (lost : Nat) (rest : List Arrival) (s : State),
    operands.length = operandBytes h →
    s.input = (headerToBytes h ++ operands).map .byte ++ .reset lost :: rest →
    (lost ≠ 0 → ∃ t, step s = .next t ∧ t.slot.kv = false ∧ t.input = rest ∧ t.output = s.output) ∧
    (lost = 0 → ∃ t u st out, step s = .next t ∧ t.input = .reset 0 :: rest ∧
      t.output = s.output ++ responseFrame st out ∧
      step t = .next u ∧ u.slot.kv = false ∧ u.input = rest ∧ u.output = t.output)

/-- `KV` is cleared by a reset event only and set by a successful `KEXP` only (R15). Where a clearing event stands, behind
bytes among which no whole frame is in time, is the model's form of the reset event (R150, log 4). -/
def Obligations.KeyValidChangesOnlyByKexpOrReset : Prop :=
  ∀ s t : State, step s = .next t →
    (s.slot.kv = true → t.slot.kv = false →
      ∃ (bytes : List Byte) (lost : Nat) (rest : List Arrival), decode (bytes.take (bytes.length - lost)) = .incomplete ∧
        s.input = bytes.map .byte ++ .reset lost :: rest ∧ t.input = rest) ∧
    (s.slot.kv = false → t.slot.kv = true →
      ∃ key n, decode (bytesInTime s.input) = .command (.kexp key) n ∧ responseStatus s t = some 0x00)

/-! ### The assembler -/

/-- A pseudo-command is `KEXP` of its key and then its mode command; if the `KEXP` is answered with an error, that is the
result and the mode command is not sent; otherwise the result is the mode command's and the key stays loaded (R52).
That the mode command runs on the very state the `KEXP` left, with no other host's frame between, is the model's choice
(log 21; R153 leaves it to the hosts). -/
def Obligations.PseudoCommandsLoadThenRun : Prop :=
  (∀ key nonce iv data : List Byte,
    expandPseudo (.ecbenc key data) = [.kexp key, .ecbe data] ∧
    expandPseudo (.ecbdec key data) = [.kexp key, .ecbd data] ∧
    expandPseudo (.cbcenc key iv data) = [.kexp key, .cbce iv data] ∧
    expandPseudo (.cbcdec key iv data) = [.kexp key, .cbcd iv data] ∧
    expandPseudo (.ctrenc key nonce iv data) = [.kexp key, .ctre nonce iv data] ∧
    expandPseudo (.ctrdec key nonce iv data) = [.kexp key, .ctrd nonce iv data]) ∧
  (∀ (p : Pseudo) (s : State), ∃ t, exec (.kexp (pseudoKey p)) s = .next t ∧
    (responseStatus s t = some 0x00 →
      runPseudo p s = exec (pseudoMode p) t ∧ ∃ u, runPseudo p s = .next u ∧ KeyHeld (pseudoKey p) u.slot) ∧
    (responseStatus s t ≠ some 0x00 → runPseudo p s = .next t ∧ t.slot = s.slot ∧ responseStatus s t = some 0x01))

/-- Lines of spec/30_encoding.md section 8 (`KEXP`, `BENC`, `CTRE`) and of spec/95_test_vectors.md section 2.9 (`ECBE`, two
`.frame` lines) assemble to the frames given there (R51); the last line, a pseudo-command, is built from R52 and
assembles to the frames of its two commands. -/
def Obligations.SampleLinesAssemble : Prop :=
  assembleLine "KEXP key=000102030405060708090a0b0c0d0e0f"
    = (hexBytes "0100100000000000000102030405060708090a0b0c0d0e0f".toList).map (fun f => [f]) ∧
  assembleLine "BENC data=00112233445566778899aabbccddeeff"
    = (hexBytes "100000000000001000112233445566778899aabbccddeeff".toList).map (fun f => [f]) ∧
  assembleLine "CTRE nonce=00000030, iv=0000000000000000, data=\"Single block msg\""
    = (hexBytes "400004080000001000000030000000000000000053696e676c6520626c6f636b206d7367".toList).map (fun f => [f]) ∧
  assembleLine "ECBE data=" = some [[0x20, 0, 0, 0, 0, 0, 0, 0]] ∧
  assembleLine ".frame op=02" = some [[0x02, 0, 0, 0, 0, 0, 0, 0]] ∧
  assembleLine ".frame op=10, rsv=01" = some [[0x10, 1, 0, 0, 0, 0, 0, 0]] ∧
  assembleLine "ECBENC key=000102030405060708090a0b0c0d0e0f, data="
    = (hexBytes "0100100000000000000102030405060708090a0b0c0d0e0f".toList).map
        (fun f => [f, [0x20, 0, 0, 0, 0, 0, 0, 0]])

/-! ### Known answers -/

/-- The three block known answers of spec/95_test_vectors.md section 1.1, forwards and backwards, and the CTR known
answer of section 1.2, each with the schedule of its key. -/
def Obligations.KnownAnswers : Prop :=
  ∀ (plain : List Byte) (rangeKey : Nat → List Byte) (enc dec : List Byte → List Byte → List Byte),
    plain = [0x00, 0x11, 0x22, 0x33, 0x44, 0x55, 0x66, 0x77, 0x88, 0x99, 0xaa, 0xbb, 0xcc, 0xdd, 0xee, 0xff] →
    rangeKey = (fun n => (List.range n).map (BitVec.ofNat 8)) →
    enc = (fun key x => encryptBlock (expandKey key).nr (wordAt (expandKey key).ek) x) →
    dec = (fun key x => decryptBlock (expandKey key).nr (wordAt (expandKey key).dk) x) →
    enc (rangeKey 16) plain =
      [0x69, 0xc4, 0xe0, 0xd8, 0x6a, 0x7b, 0x04, 0x30, 0xd8, 0xcd, 0xb7, 0x80, 0x70, 0xb4, 0xc5, 0x5a] ∧
    dec (rangeKey 16)
      [0x69, 0xc4, 0xe0, 0xd8, 0x6a, 0x7b, 0x04, 0x30, 0xd8, 0xcd, 0xb7, 0x80, 0x70, 0xb4, 0xc5, 0x5a] = plain ∧
    enc (rangeKey 24) plain =
      [0xdd, 0xa9, 0x7c, 0xa4, 0x86, 0x4c, 0xdf, 0xe0, 0x6e, 0xaf, 0x70, 0xa0, 0xec, 0x0d, 0x71, 0x91] ∧
    dec (rangeKey 24)
      [0xdd, 0xa9, 0x7c, 0xa4, 0x86, 0x4c, 0xdf, 0xe0, 0x6e, 0xaf, 0x70, 0xa0, 0xec, 0x0d, 0x71, 0x91] = plain ∧
    enc (rangeKey 32) plain =
      [0x8e, 0xa2, 0xb7, 0xca, 0x51, 0x67, 0x45, 0xbf, 0xea, 0xfc, 0x49, 0x90, 0x4b, 0x49, 0x60, 0x89] ∧
    dec (rangeKey 32)
      [0x8e, 0xa2, 0xb7, 0xca, 0x51, 0x67, 0x45, 0xbf, 0xea, 0xfc, 0x49, 0x90, 0x4b, 0x49, 0x60, 0x89] = plain ∧
    ctrBlocks
      (enc [0xae, 0x68, 0x52, 0xf8, 0x12, 0x10, 0x67, 0xcc, 0x4b, 0xf7, 0xa5, 0x76, 0x55, 0x77, 0xf3, 0x9e])
      [0, 0, 0, 0x30] [0, 0, 0, 0, 0, 0, 0, 0] 1 1
      [0x53, 0x69, 0x6e, 0x67, 0x6c, 0x65, 0x20, 0x62, 0x6c, 0x6f, 0x63, 0x6b, 0x20, 0x6d, 0x73, 0x67] =
      [0xe4, 0x09, 0x5d, 0x4f, 0xb7, 0xa7, 0xb3, 0x79, 0x2d, 0x61, 0x75, 0xa3, 0x26, 0x13, 0x11, 0xb8]
end

