-- ==== Sys2Proof/Laws/Bytes.lean ====
section
/-! SUPPORT. Byte order and byte strings: packing and unpacking undo each other, XOR goes byte by byte, lengths of
strings (spec/20_memory.md R26 to R28, spec/41_round_transforms.md R70). -/

namespace Sys2Proof.Machine

/-! ### Words and their bytes -/

@[simp] theorem byteAt_packWord_zero (a b c d : Byte) : byteAt (packWord a b c d) 0 = a := by
  apply BitVec.eq_of_getLsbD_eq
  intro i hi
  interval_cases i <;> simp [byteAt, packWord]

@[simp] theorem byteAt_packWord_one (a b c d : Byte) : byteAt (packWord a b c d) 1 = b := by
  apply BitVec.eq_of_getLsbD_eq
  intro i hi
  interval_cases i <;> simp [byteAt, packWord]

@[simp] theorem byteAt_packWord_two (a b c d : Byte) : byteAt (packWord a b c d) 2 = c := by
  apply BitVec.eq_of_getLsbD_eq
  intro i hi
  interval_cases i <;> simp [byteAt, packWord]

@[simp] theorem byteAt_packWord_three (a b c d : Byte) : byteAt (packWord a b c d) 3 = d := by
  apply BitVec.eq_of_getLsbD_eq
  intro i hi
  interval_cases i <;> simp [byteAt, packWord]

/-- A word is its four bytes packed. -/
@[simp] theorem packWord_byteAt (w : Word) : packWord (byteAt w 0) (byteAt w 1) (byteAt w 2) (byteAt w 3) = w := by
  apply BitVec.eq_of_getLsbD_eq
  intro i hi
  interval_cases i <;> simp [byteAt, packWord]

/-- Words with the same four bytes are equal. -/
theorem word_ext {u v : Word} (h0 : byteAt u 0 = byteAt v 0) (h1 : byteAt u 1 = byteAt v 1)
    (h2 : byteAt u 2 = byteAt v 2) (h3 : byteAt u 3 = byteAt v 3) : u = v := by
  rw [← packWord_byteAt u, ← packWord_byteAt v, h0, h1, h2, h3]

@[simp] theorem byteAt_xor (u v : Word) (r : Nat) : byteAt (u ^^^ v) r = byteAt u r ^^^ byteAt v r := by
  simp [byteAt, BitVec.ushiftRight_xor_distrib]

theorem packWord_xor (a b c d a' b' c' d' : Byte) :
    packWord a b c d ^^^ packWord a' b' c' d' = packWord (a ^^^ a') (b ^^^ b') (c ^^^ c') (d ^^^ d') := by
  apply word_ext <;> simp

@[simp] theorem be32_length (w : Word) : (be32 w).length = 4 := rfl

@[simp] theorem headerToBytes_length (h : Header) : (headerToBytes h).length = 8 := rfl

/-! ### Byte strings -/

theorem memRead_length (x : List Byte) (a n : Nat) : (memRead x a n).length = min n (x.length - a) := by
  simp [memRead]

/-- Reading a whole string reads the string. -/
theorem memRead_all (x : List Byte) (n : Nat) (h : x.length ≤ n) : memRead x 0 n = x := by
  simp [memRead, List.take_of_length_le h]

/-- A read inside the first of two strings. -/
theorem memRead_append_left (x y : List Byte) (a n : Nat) (h : a + n ≤ x.length) :
    memRead (x ++ y) a n = memRead x a n := by
  simp only [memRead]
  rw [List.drop_append_of_le_length (by omega), List.take_append_of_le_length (by simp; omega)]

/-- A read past the first of two strings. -/
theorem memRead_append_right (x y : List Byte) (a n : Nat) (h : x.length ≤ a) :
    memRead (x ++ y) a n = memRead y (a - x.length) n := by
  simp only [memRead]
  rw [List.drop_append, List.drop_of_length_le h, List.nil_append]

/-- A read in what is left after the first `b` bytes. -/
theorem memRead_drop (x : List Byte) (a b n : Nat) : memRead (x.drop b) a n = memRead x (b + a) n := by
  simp [memRead, List.drop_drop]

theorem xorBytes_length (x y : List Byte) : (xorBytes x y).length = min x.length y.length := by
  simp [xorBytes]

theorem xorBytes_cancel_right (x y : List Byte) (h : x.length ≤ y.length) : xorBytes (xorBytes x y) y = x := by
  induction x generalizing y with
  | nil => simp [xorBytes]
  | cons a x ih =>
    cases y with
    | nil => simp at h
    | cons b y =>
      have := ih y (by simpa using h)
      simp only [xorBytes] at this ⊢
      simp [this]

@[simp] theorem storeState_length (s : Columns) : (storeState s).length = 16 := rfl

@[simp] theorem encrypt_length (k : KeySlot) (p : List Byte) : (k.encrypt p).length = 16 := rfl

@[simp] theorem decrypt_length (k : KeySlot) (c : List Byte) : (k.decrypt c).length = 16 := rfl

end Sys2Proof.Machine
end

