-- ==== Sys2Proof/Laws/Decode.lean ====
section
/-! SUPPORT. What the decoder does: on a header's bytes, on a header, on lengths that fit their fields
(spec/30_encoding.md R41, R46, R48). -/

namespace Sys2Proof

open Sys2Proof.Machine

/-- Decoding the bytes of a header and what follows is decoding that header's frame. -/
theorem decode_headerToBytes (h : Header) (body : List Byte) :
    decode (headerToBytes h ++ body) = decodeFrame h body := by
  obtain ⟨op, rsv, alen, blen, dlen⟩ := h
  simp [headerToBytes, be32, decode]

/-- Fewer than eight bytes are no frame yet (R48). -/
theorem decode_short {bytes : List Byte} (h : bytes.length < 8) : decode bytes = .incomplete := by
  unfold decode
  split
  · simp at h
    omega
  · rfl

/-- A whole frame decodes to a command or is illegal by its header, and its length is the header's (R46, R48). -/
theorem decode_wholeFrame (h : Header) (operands more : List Byte) (hl : operands.length = operandBytes h) :
    (∃ i, decode (headerToBytes h ++ operands ++ more) = .command i (frameLength h)) ∨
      ∃ why, decodeHeader h = .error why ∧
        decode (headerToBytes h ++ operands ++ more) = .illegal why (frameLength h) := by
  rw [List.append_assoc, decode_headerToBytes, decodeFrame, if_neg (by simp [hl])]
  cases hd : decodeHeader h with
  | ok o => exact .inl ⟨_, rfl⟩
  | error why => exact .inr ⟨why, rfl, rfl⟩

/-- A frame that lacks a byte or more at its end is no frame yet (R48). -/
theorem decode_cutFrame (h : Header) (operands : List Byte) (n : Nat) (hl : operands.length = operandBytes h)
    (hn : n < 8 + operands.length) : decode ((headerToBytes h ++ operands).take n) = .incomplete := by
  by_cases h8 : n < 8
  · exact decode_short (by simp; omega)
  · rw [List.take_append, List.take_of_length_le (by simp; omega), decode_headerToBytes, decodeFrame, if_pos]
    simp
    omega

/-- The row of an opcode byte is the row with that opcode (R43). -/
theorem rowOf_eq_some_iff (b : Byte) (o : Op) : rowOf b = some o ↔ b = opcode o := by
  constructor
  · intro h
    have := List.find?_some (p := fun o => opcode o == b) h
    exact (beq_iff_eq.mp this).symm
  · rintro rfl
    cases o <;> rfl

/-- A header decodes to a row exactly when its fixed fields have the row's values (R46). -/
theorem decodeHeader_ok_iff (h : Header) (o : Op) :
    decodeHeader h = .ok o ↔
      h.op = opcode o ∧ h.rsv = 0 ∧ (usesA o = false → h.alen = 0) ∧ (usesB o = false → h.blen = 0) ∧
        (usesD o = false → h.dlen = 0) := by
  constructor
  · intro hd
    unfold decodeHeader at hd
    cases hrow : rowOf h.op with
    | none => simp [hrow] at hd
    | some p =>
      have hop := (rowOf_eq_some_iff _ _).1 hrow
      simp only [hrow] at hd
      split_ifs at hd
      injection hd with hd
      subst hd
      simp_all
  · rintro ⟨hop, hrsv, ha, hb, hd⟩
    have hrow := (rowOf_eq_some_iff _ _).2 hop
    unfold decodeHeader
    simp only [hrow]
    rw [if_neg (by simp [hrsv]), if_neg (by rintro ⟨h1, h2⟩; exact h2 (ha h1)),
      if_neg (by rintro ⟨h1, h2⟩; exact h2 (hb h1)), if_neg (by rintro ⟨h1, h2⟩; exact h2 (hd h1))]

/-- A length that fits an 8-bit field is read back as it was written. -/
theorem ofNat_toNat_short {n : Nat} (h : n ≤ Config.maxShort) : (BitVec.ofNat 8 n).toNat = n := by
  simp [Config.maxShort] at h ⊢
  omega

/-- A length that fits the 32-bit field is read back as it was written. -/
theorem ofNat_toNat_data {n : Nat} (h : n ≤ Config.maxData) : (BitVec.ofNat 32 n).toNat = n := by
  simp [Config.maxData] at h ⊢
  omega

/-- A well-formed command's operands fit their length fields. -/
theorem wellFormed_iff (i : Instr) :
    wellFormed i = true ↔ i.operandA.length ≤ Config.maxShort ∧ i.operandB.length ≤ Config.maxShort ∧
      i.operandD.length ≤ Config.maxData := by
  simp [wellFormed, fitsA, fitsB, fitsD, and_assoc]

end Sys2Proof
end

