-- ==== Sys2Proof/Laws/State.lean ====
section
/-! SUPPORT. One lemma per field per update of State, each true by rfl, so that no proof unfolds a record update. -/

namespace Sys2Proof.Machine

/-! ### `endCommand` -/

@[simp] theorem endCommand_slot (s : State) : (endCommand s).slot = s.slot := rfl
@[simp] theorem endCommand_work (s : State) : (endCommand s).work = freeTransient s.draws := rfl
@[simp] theorem endCommand_input (s : State) : (endCommand s).input = s.input := rfl
@[simp] theorem endCommand_output (s : State) : (endCommand s).output = s.output := rfl
@[simp] theorem endCommand_draws (s : State) : (endCommand s).draws = s.draws + 1 := rfl

/-! ### `receive` -/

@[simp] theorem receive_slot (a b d : List Byte) (s : State) : (receive a b d s).slot = s.slot := rfl
@[simp] theorem receive_input (a b d : List Byte) (s : State) : (receive a b d s).input = s.input := rfl
@[simp] theorem receive_output (a b d : List Byte) (s : State) : (receive a b d s).output = s.output := rfl
@[simp] theorem receive_draws (a b d : List Byte) (s : State) : (receive a b d s).draws = s.draws := rfl
@[simp] theorem receive_opa (a b d : List Byte) (s : State) : (receive a b d s).work.opa = a := rfl
@[simp] theorem receive_opb (a b d : List Byte) (s : State) : (receive a b d s).work.opb = b := rfl
@[simp] theorem receive_opd (a b d : List Byte) (s : State) : (receive a b d s).work.opd = d := rfl
@[simp] theorem receive_out (a b d : List Byte) (s : State) : (receive a b d s).work.out = [] := rfl

/-! ### `writeOut` -/

@[simp] theorem writeOut_slot (y : List Byte) (s : State) : (writeOut y s).slot = s.slot := rfl
@[simp] theorem writeOut_work (y : List Byte) (s : State) : (writeOut y s).work = { s.work with out := y } := rfl
@[simp] theorem writeOut_input (y : List Byte) (s : State) : (writeOut y s).input = s.input := rfl
@[simp] theorem writeOut_output (y : List Byte) (s : State) : (writeOut y s).output = s.output := rfl
@[simp] theorem writeOut_draws (y : List Byte) (s : State) : (writeOut y s).draws = s.draws := rfl

/-! ### `emit` -/

@[simp] theorem emit_slot (st : Status) (out : List Byte) (s : State) : (emit st out s).slot = s.slot := rfl
@[simp] theorem emit_work (st : Status) (out : List Byte) (s : State) : (emit st out s).work = s.work := rfl
@[simp] theorem emit_input (st : Status) (out : List Byte) (s : State) : (emit st out s).input = s.input := rfl
@[simp] theorem emit_output (st : Status) (out : List Byte) (s : State) : (emit st out s).output = s.output ++ responseFrame st out := rfl
@[simp] theorem emit_draws (st : Status) (out : List Byte) (s : State) : (emit st out s).draws = s.draws := rfl

/-! ### `commit` -/

@[simp] theorem commit_work (k : Schedule) (s : State) : (commit k s).work = s.work := rfl
@[simp] theorem commit_input (k : Schedule) (s : State) : (commit k s).input = s.input := rfl
@[simp] theorem commit_output (k : Schedule) (s : State) : (commit k s).output = s.output := rfl
@[simp] theorem commit_draws (k : Schedule) (s : State) : (commit k s).draws = s.draws := rfl
@[simp] theorem commit_kv (k : Schedule) (s : State) : (commit k s).slot.kv = true := rfl
@[simp] theorem commit_nk (k : Schedule) (s : State) : (commit k s).slot.nk = BitVec.ofNat 4 k.nk := rfl
@[simp] theorem commit_nr (k : Schedule) (s : State) : (commit k s).slot.nr = BitVec.ofNat 4 k.nr := rfl
@[simp] theorem commit_ek (k : Schedule) (s : State) : (commit k s).slot.ek =
    storeTable (tableWords k.nr) k.ek (Config.freeEk s.draws) := rfl
@[simp] theorem commit_dk (k : Schedule) (s : State) : (commit k s).slot.dk =
    storeTable (tableWords k.nr) k.dk (Config.freeDk s.draws) := rfl

/-! ### `consume` -/

@[simp] theorem consume_slot (n : Nat) (s : State) : (consume n s).slot = s.slot := rfl
@[simp] theorem consume_work (n : Nat) (s : State) : (consume n s).work = s.work := rfl
@[simp] theorem consume_input (n : Nat) (s : State) : (consume n s).input = s.input.drop n := rfl
@[simp] theorem consume_output (n : Nat) (s : State) : (consume n s).output = s.output := rfl
@[simp] theorem consume_draws (n : Nat) (s : State) : (consume n s).draws = s.draws := rfl

/-! ### `resetEvent` -/

@[simp] theorem resetEvent_slot (s : State) : (resetEvent s).slot = freeSlot s.draws := rfl
@[simp] theorem resetEvent_work (s : State) : (resetEvent s).work = freeTransient s.draws := rfl
@[simp] theorem resetEvent_input (s : State) : (resetEvent s).input = s.input := rfl
@[simp] theorem resetEvent_output (s : State) : (resetEvent s).output = s.output := rfl
@[simp] theorem resetEvent_draws (s : State) : (resetEvent s).draws = s.draws + 1 := rfl

/-! ### The reset event's key slot and the state at reset -/

@[simp] theorem freeSlot_kv (draw : Nat) : (freeSlot draw).kv = false := rfl
@[simp] theorem reset_kv : State.reset.slot.kv = false := rfl
@[simp] theorem reset_input : State.reset.input = [] := rfl
@[simp] theorem reset_output : State.reset.output = [] := rfl

end Sys2Proof.Machine
end

