-- ==== Sys2Proof/Laws/Ops.lean ====
section
/-! SUPPORT. One lemma per shared operation that says once everything it can do; proofs cite these and do not unfold the
operations. -/

namespace Sys2Proof.Machine

/-- Everything an `OK` response does (R44, R45). -/
theorem respondOk_spec (s : State) :
    respondOk s = .next
      { slot := s.slot, work := freeTransient s.draws, input := s.input,
        output := s.output ++ responseFrame .ok s.work.out, draws := s.draws + 1 } := rfl

/-- Everything raising an error does (R132). -/
theorem raiseError_spec (e : ErrorKind) (s : State) :
    raiseError e s = .next
      { slot := s.slot, work := freeTransient s.draws, input := s.input,
        output := s.output ++ responseFrame (.error e) [], draws := s.draws + 1 } := rfl

/-- The response of an error is its code and seven zero bytes (R45). -/
theorem responseFrame_error (e : ErrorKind) :
    responseFrame (.error e) [] = [statusCode (.error e), 0, 0, 0, 0, 0, 0, 0] := rfl

/-- The first byte of a response is its status code (R44). -/
@[simp] theorem responseFrame_head (st : Status) (out : List Byte) :
    (responseFrame st out).head? = some (statusCode st) := rfl

/-- No two statuses share a code (R130). -/
theorem statusCode_injective {a b : Status} (h : statusCode a = statusCode b) : a = b := by
  cases a with
  | ok => cases b with
    | ok => rfl
    | error e => cases e <;> simp [statusCode] at h
  | error e => cases b with
    | ok => cases e <;> simp [statusCode] at h
    | error f => cases e <;> cases f <;> simp [statusCode] at h ⊢

/-! ### The command bodies

Each answers, leaves what has arrived alone, and the response is the first check that fails, or the result. -/

/-- What a command leaves that answers with one response and writes no persistent field. -/
def answeredState (st : Status) (out : List Byte) (s : State) : State :=
  { slot := s.slot, work := freeTransient s.draws, input := s.input, output := s.output ++ responseFrame st out,
    draws := s.draws + 1 }

@[simp] theorem answeredState_slot (st : Status) (out : List Byte) (s : State) :
    (answeredState st out s).slot = s.slot := rfl
@[simp] theorem answeredState_input (st : Status) (out : List Byte) (s : State) :
    (answeredState st out s).input = s.input := rfl
@[simp] theorem answeredState_output (st : Status) (out : List Byte) (s : State) :
    (answeredState st out s).output = s.output ++ responseFrame st out := rfl
@[simp] theorem answeredState_work (st : Status) (out : List Byte) (s : State) :
    (answeredState st out s).work = freeTransient s.draws := rfl
@[simp] theorem answeredState_draws (st : Status) (out : List Byte) (s : State) :
    (answeredState st out s).draws = s.draws + 1 := rfl

/-- Everything a single-block command does (R103, R104). -/
theorem blockCommand_spec (f : KeySlot → List Byte → List Byte) (data : List Byte) (s : State) :
    blockCommand f (receive [] [] data s) = .next
      (if s.slot.kv = false then answeredState (.error .noKey) [] s
        else if data.length = 16 then answeredState .ok (f s.slot data) s
        else answeredState (.error .invalidBlockSize) [] s) := by
  by_cases hk : s.slot.kv = false
  · simp [blockCommand, hk, raiseError_spec, answeredState]
  · by_cases hd : data.length = 16
    · simp [blockCommand, hk, hd, isBlock, Config.blockBytes, respondOk_spec, answeredState, memRead, writeOut,
        List.take_of_length_le (le_of_eq hd)]
    · simp [blockCommand, hk, hd, isBlock, Config.blockBytes, raiseError_spec, answeredState]

/-- Everything an ECB command does (R112, R113). -/
theorem ecbCommand_spec (f : KeySlot → List Byte → List Byte) (data : List Byte) (s : State) :
    ecbCommand f (receive [] [] data s) = .next
      (if s.slot.kv = false then answeredState (.error .noKey) [] s
        else if data.length % 16 = 0 then answeredState .ok (ecbBlocks (f s.slot) (data.length / 16) data) s
        else answeredState (.error .invalidBlockSize) [] s) := by
  by_cases hk : s.slot.kv = false
  · simp [ecbCommand, hk, raiseError_spec, answeredState]
  · by_cases hd : data.length % 16 = 0
    · simp [ecbCommand, hk, hd, isBlocks, Config.blockBytes, respondOk_spec, answeredState, writeOut]
    · simp [ecbCommand, hk, hd, isBlocks, Config.blockBytes, raiseError_spec, answeredState]

/-- Everything a CBC command does (R114, R116). -/
theorem cbcCommand_spec (f : KeySlot → Nat → List Byte → List Byte → List Byte) (iv data : List Byte) (s : State) :
    cbcCommand f (receive iv [] data s) = .next
      (if s.slot.kv = false then answeredState (.error .noKey) [] s
        else if iv.length = 16 then
          if data.length % 16 = 0 then answeredState .ok (f s.slot (data.length / 16) iv data) s
          else answeredState (.error .invalidBlockSize) [] s
        else answeredState (.error .invalidIvSize) [] s) := by
  by_cases hk : s.slot.kv = false
  · simp [cbcCommand, hk, raiseError_spec, answeredState]
  · by_cases hi : iv.length = 16
    · by_cases hd : data.length % 16 = 0
      · simp [cbcCommand, hk, hi, hd, isCbcIv, isBlocks, Config.cbcIvBytes, Config.blockBytes, respondOk_spec,
          answeredState, writeOut, memRead, List.take_of_length_le (le_of_eq hi)]
      · simp [cbcCommand, hk, hi, hd, isCbcIv, isBlocks, Config.cbcIvBytes, Config.blockBytes, raiseError_spec,
          answeredState]
    · simp [cbcCommand, hk, hi, isCbcIv, Config.cbcIvBytes, raiseError_spec, answeredState]

/-- Everything a CTR command does, in either direction (R118, R119). -/
theorem ctrCommand_spec (nonce iv data : List Byte) (s : State) :
    ctrCommand (receive nonce iv data s) = .next
      (if s.slot.kv = false then answeredState (.error .noKey) [] s
        else if nonce.length = 4 ∧ iv.length = 8 then
          answeredState .ok (ctrBlocks s.slot.encrypt nonce iv (blockCount data.length) 1 data) s
        else answeredState (.error .invalidIvSize) [] s) := by
  by_cases hk : s.slot.kv = false
  · simp [ctrCommand, hk, raiseError_spec, answeredState]
  · by_cases hi : nonce.length = 4 ∧ iv.length = 8
    · simp [ctrCommand, hk, hi, isCtrIv, Config.ctrNonceBytes, Config.ctrIvBytes, Config.ctrStart, respondOk_spec,
        answeredState, writeOut, memRead, List.take_of_length_le (le_of_eq hi.1),
        List.take_of_length_le (le_of_eq hi.2)]
    · simp [ctrCommand, hk, hi, isCtrIv, Config.ctrNonceBytes, Config.ctrIvBytes, raiseError_spec, answeredState]

/-- Everything `KEXP` does (R90, R95). -/
theorem loadKey_spec (key : List Byte) (s : State) :
    loadKey (receive key [] [] s) = .next
      (if legalKeyLength key.length then answeredState .ok [] (commit (expandKey key) s)
        else answeredState (.error .invalidKeySize) [] s) := by
  by_cases hk : legalKeyLength key.length
  · simp [loadKey, hk, respondOk_spec, answeredState, memRead, commit]
  · simp [loadKey, hk, raiseError_spec, answeredState]

end Sys2Proof.Machine
end

