-- ==== Sys2Proof/Laws/Schedule.lean ====
section
/-! SUPPORT. The key schedule's lists and the word stores: lengths, and that later words leave earlier ones alone
(spec/42_key_schedule.md R91 to R96). -/

namespace Sys2Proof.Machine

/-- Extending a table adds exactly that many words. -/
@[simp] theorem extend_length (nk n : Nat) (ws : List Word) : (extend nk n ws).length = ws.length + n := by
  induction n generalizing ws with
  | zero => rfl
  | succ n ih => simp [extend, ih]; omega

/-- Appending to a table leaves its words alone. -/
theorem wordAt_append_left (ws vs : List Word) (i : Nat) (h : i < ws.length) : wordAt (ws ++ vs) i = wordAt ws i := by
  simp only [wordAt, List.getD_eq_getElem?_getD, List.getElem?_append_left h]

/-- The word appended to a table. -/
theorem wordAt_append_self (ws : List Word) (w : Word) : wordAt (ws ++ [w]) ws.length = w := by
  simp [wordAt]

/-- Extending a table leaves its words alone. -/
theorem wordAt_extend_of_lt (nk n : Nat) (ws : List Word) (i : Nat) (h : i < ws.length) :
    wordAt (extend nk n ws) i = wordAt ws i := by
  induction n generalizing ws with
  | zero => rfl
  | succ n ih => rw [extend, ih _ (by simp; omega), wordAt_append_left _ _ _ h]

/-- A word past the start of the extension is made from the words before it (R92). -/
theorem wordAt_extend_of_ge (nk n : Nat) (ws : List Word) (i : Nat) (hnk : 0 < nk) (hk : nk ≤ ws.length)
    (h : ws.length ≤ i) (hi : i < ws.length + n) :
    wordAt (extend nk n ws) i =
      wordAt (extend nk n ws) (i - nk) ^^^ scheduleTemp nk i (wordAt (extend nk n ws) (i - 1)) := by
  induction n generalizing ws with
  | zero => omega
  | succ n ih =>
    rw [extend]
    by_cases hlt : ws.length < i
    · exact ih _ (by simp; omega) (by simp; omega) (by simp; omega)
    · obtain rfl : i = ws.length := by omega
      rw [wordAt_extend_of_lt _ _ _ ws.length (by simp), wordAt_extend_of_lt _ _ _ (ws.length - nk) (by simp),
        wordAt_extend_of_lt _ _ _ (ws.length - 1) (by simp), wordAt_append_self,
        wordAt_append_left _ _ (ws.length - nk) (by omega), wordAt_append_left _ _ (ws.length - 1) (by omega), nextWord]

/-- A word of a table stored in a 60-word store (R16). -/
theorem storeWord_storeTable (n : Nat) (ws : List Word) (free : Nat → Word) (i : Nat) (h : i < n) (hn : n ≤ 60) :
    storeWord (storeTable n ws free) i = wordAt ws i := by
  have h60 : i < Config.scheduleWords := by simp [Config.scheduleWords]; omega
  simp [storeWord, storeTable, h60, h]

end Sys2Proof.Machine
end

