-- ==== Sys2Proof/Laws/Exec.lean ====
section
/-! SUPPORT. What a command can do, said once over all nine: it is a successful `KEXP` and commits its schedule, or it
answers and writes no persistent field (spec/10_state.md R17, spec/60_exceptions.md R132). -/

namespace Sys2Proof.Machine

/-- Everything a command can do. -/
theorem exec_cases (i : Instr) (s : State) :
    (∃ key, i = .kexp key ∧ legalKeyLength key.length = true ∧
      exec i s = .next (answeredState .ok [] (commit (expandKey key) s))) ∨
    ∃ st out, exec i s = .next (answeredState st out s) ∧ (i.op = .kexp → st = .error .invalidKeySize) := by
  cases i with
  | kexp key =>
    by_cases h : legalKeyLength key.length = true
    · exact .inl ⟨key, rfl, h, by rw [exec, execKexp, loadKey_spec, if_pos h]⟩
    · exact .inr ⟨_, _, by rw [exec, execKexp, loadKey_spec, if_neg h], fun _ => rfl⟩
  | benc data =>
    refine .inr ?_
    rw [exec, execBenc, blockCommand_spec]
    split_ifs <;> exact ⟨_, _, rfl, fun h => by simp [Instr.op] at h⟩
  | bdec data =>
    refine .inr ?_
    rw [exec, execBdec, blockCommand_spec]
    split_ifs <;> exact ⟨_, _, rfl, fun h => by simp [Instr.op] at h⟩
  | ecbe data =>
    refine .inr ?_
    rw [exec, execEcbe, ecbCommand_spec]
    split_ifs <;> exact ⟨_, _, rfl, fun h => by simp [Instr.op] at h⟩
  | ecbd data =>
    refine .inr ?_
    rw [exec, execEcbd, ecbCommand_spec]
    split_ifs <;> exact ⟨_, _, rfl, fun h => by simp [Instr.op] at h⟩
  | cbce iv data =>
    refine .inr ?_
    rw [exec, execCbce, cbcCommand_spec]
    split_ifs <;> exact ⟨_, _, rfl, fun h => by simp [Instr.op] at h⟩
  | cbcd iv data =>
    refine .inr ?_
    rw [exec, execCbcd, cbcCommand_spec]
    split_ifs <;> exact ⟨_, _, rfl, fun h => by simp [Instr.op] at h⟩
  | ctre nonce iv data =>
    refine .inr ?_
    rw [exec, execCtre, ctrCommand_spec]
    split_ifs <;> exact ⟨_, _, rfl, fun h => by simp [Instr.op] at h⟩
  | ctrd nonce iv data =>
    refine .inr ?_
    rw [exec, execCtrd, ctrCommand_spec]
    split_ifs <;> exact ⟨_, _, rfl, fun h => by simp [Instr.op] at h⟩

/-- A command neither reads nor changes what has arrived (R12, R35). -/
theorem exec_withInput (i : Instr) (s : State) (input : List Arrival) :
    exec i { s with input := input } =
      match exec i s with
      | .next t => .next { t with input := input }
      | .fault r => .fault r
      | .refused r => .refused r := by
  cases i with
  | kexp key => simp only [exec, execKexp, loadKey_spec]; split_ifs <;> rfl
  | benc data => simp only [exec, execBenc, blockCommand_spec]; split_ifs <;> rfl
  | bdec data => simp only [exec, execBdec, blockCommand_spec]; split_ifs <;> rfl
  | ecbe data => simp only [exec, execEcbe, ecbCommand_spec]; split_ifs <;> rfl
  | ecbd data => simp only [exec, execEcbd, ecbCommand_spec]; split_ifs <;> rfl
  | cbce iv data => simp only [exec, execCbce, cbcCommand_spec]; split_ifs <;> rfl
  | cbcd iv data => simp only [exec, execCbcd, cbcCommand_spec]; split_ifs <;> rfl
  | ctre nonce iv data => simp only [exec, execCtre, ctrCommand_spec]; split_ifs <;> rfl
  | ctrd nonce iv data => simp only [exec, execCtrd, ctrCommand_spec]; split_ifs <;> rfl

end Sys2Proof.Machine
end

