-- ==== Sys2Proof/Laws/PerInstr.lean ====
section
/-! SUPPORT. Facts about every command as syntax, one lemma per constructor. Family `EncodeLength`: an encoded command
is 8 header bytes and its operands (spec/30_encoding.md R41, R42). -/

namespace Sys2Proof.Laws.EncodeLength

/-- The frame's length is 8 plus the lengths of the operands (R41). -/
def Statement (i : Instr) : Prop :=
  (encode i).length = 8 + i.operandA.length + i.operandB.length + i.operandD.length

/-- The shape of every frame. -/
theorem rawFrame_length (op rsv : Byte) (a b d : List Byte) :
    (rawFrame op rsv a b d).length = 8 + a.length + b.length + d.length := by
  simp [rawFrame, Nat.add_assoc]

theorem kexp (key : List Byte) : Statement (.kexp key) := rawFrame_length _ _ _ _ _

theorem benc (data : List Byte) : Statement (.benc data) := rawFrame_length _ _ _ _ _

theorem bdec (data : List Byte) : Statement (.bdec data) := rawFrame_length _ _ _ _ _

theorem ecbe (data : List Byte) : Statement (.ecbe data) := rawFrame_length _ _ _ _ _

theorem ecbd (data : List Byte) : Statement (.ecbd data) := rawFrame_length _ _ _ _ _

theorem cbce (iv data : List Byte) : Statement (.cbce iv data) := rawFrame_length _ _ _ _ _

theorem cbcd (iv data : List Byte) : Statement (.cbcd iv data) := rawFrame_length _ _ _ _ _

theorem ctre (nonce iv data : List Byte) : Statement (.ctre nonce iv data) := rawFrame_length _ _ _ _ _

theorem ctrd (nonce iv data : List Byte) : Statement (.ctrd nonce iv data) := rawFrame_length _ _ _ _ _

end Sys2Proof.Laws.EncodeLength
end

