-- ==== Sys2Proof/Laws/Step.lean ====
section
/-! SUPPORT. What a step can do, said once, and how what has arrived splits into bytes and reset events
(spec/30_encoding.md R40, R48, spec/70_reset_and_hazards.md R150). -/

namespace Sys2Proof.Machine

/-! ### Arrivals -/

@[simp] theorem leadingBytes_nil : leadingBytes [] = [] := rfl
@[simp] theorem leadingBytes_byte (b : Byte) (rest : List Arrival) :
    leadingBytes (.byte b :: rest) = b :: leadingBytes rest := rfl
@[simp] theorem leadingBytes_reset (n : Nat) (rest : List Arrival) : leadingBytes (.reset n :: rest) = [] := rfl

@[simp] theorem lostBytes_nil : lostBytes [] = 0 := rfl
@[simp] theorem lostBytes_byte (b : Byte) (rest : List Arrival) : lostBytes (.byte b :: rest) = lostBytes rest := rfl
@[simp] theorem lostBytes_reset (n : Nat) (rest : List Arrival) : lostBytes (.reset n :: rest) = n := rfl

@[simp] theorem leadingBytes_append (bytes : List Byte) (rest : List Arrival) :
    leadingBytes (bytes.map .byte ++ rest) = bytes ++ leadingBytes rest := by
  induction bytes with
  | nil => rfl
  | cons b bytes ih => simp [ih]

@[simp] theorem lostBytes_append (bytes : List Byte) (rest : List Arrival) :
    lostBytes (bytes.map .byte ++ rest) = lostBytes rest := by
  induction bytes with
  | nil => rfl
  | cons b bytes ih => simp [ih]

/-- With no reset event every byte is in time. -/
@[simp] theorem bytesInTime_bytes (bytes : List Byte) : bytesInTime (bytes.map .byte) = bytes := by
  have hl := leadingBytes_append bytes []
  have hn := lostBytes_append bytes []
  simp at hl hn
  simp [bytesInTime, hl, hn]

/-- With a reset event after them, the bytes it does not catch are in time. -/
@[simp] theorem bytesInTime_reset (bytes : List Byte) (lost : Nat) (rest : List Arrival) :
    bytesInTime (bytes.map .byte ++ .reset lost :: rest) = bytes.take (bytes.length - lost) := by
  simp [bytesInTime]

/-- Bytes in front of arrivals whose first reset event catches none of them are in time. -/
theorem bytesInTime_append (bytes : List Byte) (rest : List Arrival)
    (h : lostBytes rest ≤ (leadingBytes rest).length) :
    bytesInTime (bytes.map .byte ++ rest) = bytes ++ bytesInTime rest := by
  simp only [bytesInTime, leadingBytes_append, lostBytes_append, List.length_append]
  rw [Nat.add_sub_assoc h, List.take_length_add_append]

/-- Taking arrivals that are bytes in time takes those bytes and leaves the others in time. -/
theorem bytesInTime_drop (input : List Arrival) (n : Nat) (h : n ≤ (bytesInTime input).length) :
    bytesInTime (input.drop n) = (bytesInTime input).drop n := by
  have key : ∀ (n : Nat) (input : List Arrival), n ≤ (leadingBytes input).length →
      leadingBytes (input.drop n) = (leadingBytes input).drop n ∧ lostBytes (input.drop n) = lostBytes input := by
    intro n
    induction n with
    | zero => simp
    | succ n ih =>
      intro input h
      match input with
      | [] => simp at h
      | .reset _ :: _ => simp at h
      | .byte b :: rest =>
        have := ih rest (by simpa using h)
        simpa using this
  have hn : n ≤ (leadingBytes input).length := by
    simp [bytesInTime] at h
    omega
  obtain ⟨h1, h2⟩ := key n input hn
  rw [bytesInTime, bytesInTime, h1, h2, List.drop_take, List.length_drop, Nat.sub_right_comm]

/-- Clipping leaves the bytes alone, and then bytes put in front are in time. -/
theorem bytesInTime_append_clipLost (bytes : List Byte) (rest : List Arrival) :
    bytesInTime (bytes.map .byte ++ clipLost 0 rest) = bytes ++ bytesInTime rest := by
  have key : ∀ (rest : List Arrival) (k : Nat), leadingBytes (clipLost k rest) = leadingBytes rest ∧
      lostBytes (clipLost k rest) = min (lostBytes rest) (k + (leadingBytes rest).length) := by
    intro rest
    induction rest with
    | nil => intro k; simp [clipLost]
    | cons a rest ih =>
      intro k
      cases a with
      | reset n => simp [clipLost]
      | byte b =>
        obtain ⟨h1, h2⟩ := ih (k + 1)
        refine ⟨by simp [clipLost, h1], ?_⟩
        simp only [clipLost, lostBytes_byte, leadingBytes_byte, h2, List.length_cons]
        omega
  obtain ⟨h1, h2⟩ := key rest 0
  rw [bytesInTime_append _ _ (by rw [h1, h2]; omega), bytesInTime, bytesInTime, h1, h2]
  congr 2
  omega

/-- What has arrived is its bytes up to the first reset event, and then nothing or that event. -/
theorem arrivals_split (input : List Arrival) :
    input = (leadingBytes input).map .byte ∨
      ∃ rest, input = (leadingBytes input).map .byte ++ .reset (lostBytes input) :: rest := by
  induction input with
  | nil => exact .inl rfl
  | cons a input ih =>
    cases a with
    | reset n => exact .inr ⟨input, rfl⟩
    | byte b =>
      obtain h | ⟨rest, h⟩ := ih
      · exact .inl (by rw [leadingBytes_byte, List.map_cons, ← h])
      · exact .inr ⟨rest, by rw [leadingBytes_byte, lostBytes_byte, List.map_cons, List.cons_append, ← h]⟩

/-! ### The step -/

/-- Where the decoder finds a command in time, the step is that command's meaning. -/
theorem step_command {s : State} {i : Instr} {n : Nat} (h : decode (bytesInTime s.input) = .command i n) :
    step s = exec i (consume n s) := by
  simp [step, fetch, h]

/-- Where the decoder finds an illegal command in time, the step answers it. -/
theorem step_illegal {s : State} {why : Reject} {n : Nat} (h : decode (bytesInTime s.input) = .illegal why n) :
    step s = .next (answeredState (.error .illegalCommand) [] (consume n s)) := by
  simp [step, fetch, h, answerIllegal, raiseError_spec, answeredState]

/-- With an unfinished frame and no reset event after it, the step waits. -/
theorem step_idle {s : State} (h : decode (bytesInTime s.input) = .incomplete)
    (hi : s.input = (leadingBytes s.input).map .byte) : step s = .next s := by
  have : ¬ (leadingBytes s.input).length < s.input.length := by
    conv => rhs; rhs; rw [hi]
    simp
  simp [step, fetch, h, this]

/-- With no whole frame in time and a reset event behind the bytes, the step is that event. -/
theorem step_reset {s : State} {lost : Nat} {rest : List Arrival} (h : decode (bytesInTime s.input) = .incomplete)
    (hi : s.input = (leadingBytes s.input).map .byte ++ .reset lost :: rest) :
    step s = .next (resetEvent { s with input := rest }) := by
  have hl : s.input.length = (leadingBytes s.input).length + (rest.length + 1) := by
    conv => lhs; rw [hi]
    simp
  have hd : s.input.drop ((leadingBytes s.input).length + 1) = rest := by
    conv => lhs; rhs; rw [hi]
    simp [List.drop_append]
  simp [step, fetch, h, hl, consume, hd]

/-- Everything a step can do. -/
theorem step_cases (s : State) :
    (∃ i n, decode (bytesInTime s.input) = .command i n ∧ step s = exec i (consume n s)) ∨
    (∃ why n, decode (bytesInTime s.input) = .illegal why n ∧
      step s = .next (answeredState (.error .illegalCommand) [] (consume n s))) ∨
    (decode (bytesInTime s.input) = .incomplete ∧ s.input = (leadingBytes s.input).map .byte ∧ step s = .next s) ∨
    (∃ rest, decode (bytesInTime s.input) = .incomplete ∧
      s.input = (leadingBytes s.input).map .byte ++ .reset (lostBytes s.input) :: rest ∧
      step s = .next (resetEvent { s with input := rest })) := by
  cases h : decode (bytesInTime s.input) with
  | command i n => exact .inl ⟨i, n, rfl, step_command h⟩
  | illegal why n => exact .inr (.inl ⟨why, n, rfl, step_illegal h⟩)
  | incomplete =>
    obtain hi | ⟨rest, hi⟩ := arrivals_split s.input
    · exact .inr (.inr (.inl ⟨rfl, hi, step_idle h hi⟩))
    · exact .inr (.inr (.inr ⟨rest, rfl, hi, step_reset h hi⟩))

end Sys2Proof.Machine
end

