-- ==== Sys2Proof/Tests/Slice0.lean ====
section
/-! SUPPORT. Tests whose expected results come from the spec (spec/95_test_vectors.md, spec/30_encoding.md section 8, the
worked examples of the rules), the well-formedness smoke test, and for every obligation with hypotheses a witness that
meets them. -/

namespace Sys2Proof.Tests.Slice0

open Sys2Proof Sys2Proof.Machine

/-! ### Helpers -/

/-- The key of spec/95_test_vectors.md section 2.8. -/
def sampleKey : List Byte :=
  [0x2b, 0x7e, 0x15, 0x16, 0x28, 0xae, 0xd2, 0xa6, 0xab, 0xf7, 0x15, 0x88, 0x09, 0xcf, 0x4f, 0x3c]

/-- Its encryption table, spec/95_test_vectors.md section 2.5. -/
def sampleEk : List Word :=
  [ 0x2b7e1516, 0x28aed2a6, 0xabf71588, 0x09cf4f3c,
    0xa0fafe17, 0x88542cb1, 0x23a33939, 0x2a6c7605,
    0xf2c295f2, 0x7a96b943, 0x5935807a, 0x7359f67f,
    0x3d80477d, 0x4716fe3e, 0x1e237e44, 0x6d7a883b,
    0xef44a541, 0xa8525b7f, 0xb671253b, 0xdb0bad00,
    0xd4d1c6f8, 0x7c839d87, 0xcaf2b8bc, 0x11f915bc ] ++
  [ 0x6d88a37a, 0x110b3efd, 0xdbf98641, 0xca0093fd,
    0x4e54f70e, 0x5f5fc9f3, 0x84a64fb2, 0x4ea6dc4f,
    0xead27321, 0xb58dbad2, 0x312bf560, 0x7f8d292f,
    0xac7766f3, 0x19fadc21, 0x28d12941, 0x575c006e,
    0xd014f9a8, 0xc9ee2589, 0xe13f0cc8, 0xb6630ca6 ]

/-- Its decryption table, spec/95_test_vectors.md section 2.5. -/
def sampleDk : List Word :=
  [ 0x2b7e1516, 0x28aed2a6, 0xabf71588, 0x09cf4f3c,
    0x2b3708a7, 0xf262d405, 0xbc3ebdbf, 0x4b617d62,
    0xcc7505eb, 0x3e17d1ee, 0x82296c51, 0xc9481133,
    0x7c1f13f7, 0x4208c219, 0xc021ae48, 0x0969bf7b,
    0x90884413, 0xd280860a, 0x12a12842, 0x1bc89739,
    0x6ea30afc, 0xbc238cf6, 0xae82a4b4, 0xb54a338d ] ++
  [ 0x6efcd876, 0xd2df5480, 0x7c5df034, 0xc917c3b9,
    0x12c07647, 0xc01f22c7, 0xbc42d2f3, 0x7555114a,
    0xdf7d925a, 0x1f62b09d, 0xa320626e, 0xd6757324,
    0x0c7b5a63, 0x1319eafe, 0xb0398890, 0x664cfbb4,
    0xd014f9a8, 0xc9ee2589, 0xe13f0cc8, 0xb6630ca6 ]

/-- A key slot that holds it. -/
def sampleSlot : KeySlot :=
  { kv := true, nk := 4, nr := 10, ek := storeTable 44 sampleEk (Config.freeEk 0),
    dk := storeTable 44 sampleDk (Config.freeDk 0) }

/-- A machine that holds it. -/
def loaded : State := { State.reset with slot := sampleSlot }

/-- A machine to which some bytes have arrived. -/
def withBytes (s : State) (bytes : List Byte) : State := { s with input := bytes.map .byte }

/-- The response of an outcome, for a machine that had emitted nothing before. -/
def response : Result → List Byte
  | .next t => t.output
  | .fault _ => []
  | .refused _ => []

/-- Two message blocks, spec/95_test_vectors.md section 2.8. -/
def twoBlocks : List Byte :=
  [0x6b, 0xc1, 0xbe, 0xe2, 0x2e, 0x40, 0x9f, 0x96, 0xe9, 0x3d, 0x7e, 0x11, 0x73, 0x93, 0x17, 0x2a, 0xae, 0x2d,
   0x8a, 0x57, 0x1e, 0x03, 0xac, 0x9c, 0x9e, 0xb7, 0x6f, 0xac, 0x45, 0xaf, 0x8e, 0x51]

/-- The IV 00 01 .. 0f. -/
def countingIv : List Byte := (List.range 16).map (BitVec.ofNat 8)

/-! ### Well-formedness: a term for each check, which the check refuses, and its neighbour, which it accepts -/

theorem test_wellFormed_refuses_long_operandA :
    fitsA (.kexp (List.replicate 256 0)) = false ∧ wellFormed (.kexp (List.replicate 256 0)) = false ∧
      wellFormed (.kexp (List.replicate 255 0)) = true := by
  decide +kernel

theorem test_wellFormed_refuses_long_operandB :
    fitsB (.ctre [] (List.replicate 256 0) []) = false ∧ wellFormed (.ctre [] (List.replicate 256 0) []) = false ∧
      wellFormed (.ctre [] (List.replicate 255 0) []) = true := by
  decide +kernel

/-- The third check on a data operand of `n` zero bytes. -/
theorem wellFormed_ecbe_replicate (n : Nat) :
    fitsD (.ecbe (List.replicate n 0)) = decide (n ≤ 4294967295) ∧
      wellFormed (.ecbe (List.replicate n 0)) = decide (n ≤ 4294967295) := by
  simp only [wellFormed, fitsA, fitsB, fitsD, Instr.operandA, Instr.operandB, Instr.operandD, Config.maxShort,
    Config.maxData, List.length_replicate, List.length_nil]
  simp

theorem test_wellFormed_refuses_long_operandD :
    wellFormed (.ecbe (List.replicate 4294967296 0)) = false ∧
      wellFormed (.ecbe (List.replicate 4294967295 0)) = true :=
  ⟨(wellFormed_ecbe_replicate 4294967296).2.trans (by decide),
    (wellFormed_ecbe_replicate 4294967295).2.trans (by decide)⟩

/-! ### Decoding: every constructor from a frame written out from the encoding (R41 to R43, R46) -/

theorem test_decode_kexp :
    decode [0x01, 0x00, 0x02, 0x00, 0x00, 0x00, 0x00, 0x00, 0xaa, 0xbb] = .command (.kexp [0xaa, 0xbb]) 10 := by decide

theorem test_decode_benc :
    decode [0x10, 0x00, 0x00, 0x00, 0x00, 0x00, 0x00, 0x02, 0xaa, 0xbb] = .command (.benc [0xaa, 0xbb]) 10 := by decide

theorem test_decode_bdec :
    decode [0x11, 0x00, 0x00, 0x00, 0x00, 0x00, 0x00, 0x01, 0xcc] = .command (.bdec [0xcc]) 9 := by decide

theorem test_decode_ecbe :
    decode [0x20, 0x00, 0x00, 0x00, 0x00, 0x00, 0x00, 0x00] = .command (.ecbe []) 8 := by decide

theorem test_decode_ecbd :
    decode [0x21, 0x00, 0x00, 0x00, 0x00, 0x00, 0x00, 0x03, 0x01, 0x02, 0x03] = .command (.ecbd [1, 2, 3]) 11 := by decide

theorem test_decode_cbce :
    decode [0x30, 0x00, 0x02, 0x00, 0x00, 0x00, 0x00, 0x01, 0x0a, 0x0b, 0x0c] = .command (.cbce [0x0a, 0x0b] [0x0c]) 11 := by decide

theorem test_decode_cbcd :
    decode [0x31, 0x00, 0x01, 0x00, 0x00, 0x00, 0x00, 0x02, 0x0a, 0x0b, 0x0c] = .command (.cbcd [0x0a] [0x0b, 0x0c]) 11 := by decide

theorem test_decode_ctre :
    decode [0x40, 0x00, 0x01, 0x02, 0x00, 0x00, 0x00, 0x03, 0x01, 0x02, 0x03, 0x04, 0x05, 0x06] = .command (.ctre [1] [2, 3] [4, 5, 6]) 14 := by decide

theorem test_decode_ctrd :
    decode [0x41, 0x00, 0x02, 0x01, 0x00, 0x00, 0x00, 0x01, 0x01, 0x02, 0x03, 0x04] = .command (.ctrd [1, 2] [3] [4]) 12 := by decide

/-- The bits of a length field are not swapped: `DLEN` is big-endian (R41), and bytes past the frame are left. -/
theorem test_decode_length_big_endian :
    decode ([0x20, 0, 0, 0, 0x00, 0x00, 0x01, 0x02] ++ List.replicate 257 0) = .incomplete ∧
      decode ([0x11, 0, 0, 0, 0, 0, 0, 1] ++ [7, 8, 9]) = .command (.bdec [7]) 9 := by decide +kernel

/-- spec/95_test_vectors.md section 2.9, the illegal frames. -/
theorem test_decode_illegal :
    decode [0x02, 0, 0, 0, 0, 0, 0, 0] = .illegal (.unknownOp 2) 8 ∧
      decode [0x00, 0, 0, 0, 0, 0, 0, 0] = .illegal (.unknownOp 0) 8 ∧
      decode [0x10, 1, 0, 0, 0, 0, 0, 0] = .illegal (.reservedByte 1) 8 ∧
      decode [0x10, 0, 1, 0, 0, 0, 0, 0, 0] = .illegal (.unusedOperandA 1) 9 ∧
      decode [0x30, 0, 0, 1, 0, 0, 0, 0, 0] = .illegal (.unusedOperandB 1) 9 ∧
      decode [0x01, 0, 0, 0, 0, 0, 0, 1, 0] = .illegal (.unusedOperandD 1) 9 := by decide

/-- The opcode table's own numbering: a row's match, and a row with its length fields set, read zero operand bytes. -/
theorem test_decodeTableWord :
    decodeTableWord 64 0x0100000000000000 = some (.kexp []) ∧
      decodeTableWord 64 0x4100020100000003 = some (.ctrd [0, 0] [0] [0, 0, 0]) ∧
      decodeTableWord 64 0xFF00000000000000 = none := by decide

/-- The word of a row is what the next step runs: `KEXP` of an empty key is `InvalidKeySize` (section 2.9). -/
theorem test_withFetchWord :
    response (step (State.reset.withFetchWord 64 0x0100000000000000)) = [0x01, 0, 0, 0, 0, 0, 0, 0] ∧
      response (step (State.reset.withFetchWord 64 0x1000000000000000)) = [0x04, 0, 0, 0, 0, 0, 0, 0] := by decide

/-- spec/30_encoding.md section 8: the frame of a `KEXP`. -/
theorem test_encode_kexp :
    encode (.kexp countingIv) = [0x01, 0, 0x10, 0, 0, 0, 0, 0] ++ countingIv := by decide

/-! ### The datapath (spec/95_test_vectors.md sections 2.1 to 2.4) -/

theorem test_xtime : xtime 0x57 = 0xae ∧ xtime 0x80 = 0x1b ∧ xtime 0xff = 0xe5 ∧ xtime 0x7f = 0xfe := by decide

theorem test_mul : mul 0x57 0x13 = 0xfe ∧ mul 0x57 0x83 = 0xc1 ∧ mul 0xff 0xff = 0x13 ∧ mul 0x09 0x0d = 0x65 := by
  decide

theorem test_mulBrute : mulBrute 0x57 0x13 = 0xfe ∧ mulBrute 0xff 0xff = 0x13 := by decide +kernel

theorem test_inv : inv 0x53 = 0xca ∧ inv 0x02 = 0x8d ∧ inv 0x00 = 0x00 ∧ inv 0xff = 0x1c := by decide +kernel

theorem test_affine : affine 0x00 = 0x63 ∧ affine 0x8d = 0x77 ∧ affine 0xca = 0xed ∧ affine 0xff = 0x9c := by decide

theorem test_sbox : sbox 0x53 = 0xed ∧ sbox 0x52 = 0x00 ∧ sbox 0xff = 0x16 ∧ invSbox 0xed = 0x53 := by decide

theorem test_rcon : rcon 0 = 0x01 ∧ rcon 8 = 0x1b ∧ rcon 9 = 0x36 := by decide

theorem test_words :
    subWord 0x09cf4f3c = 0x018a84eb ∧ invSubWord 0x53ca0001 = 0x50105209 ∧ rotWord 0x09cf4f3c = 0xcf4f3c09 := by decide

theorem test_mixColumn :
    mixColumn 0xdb135345 = 0x8e4da1bc ∧ mixColumn 0x2d26314c = 0x4d7ebdf8 ∧ invMixColumn 0xdb135345 = 0x32a41d55 ∧
      invMixColumn 0x12345678 = 0x1d9349cf := by decide

theorem test_shiftRows :
    shiftRows ⟨0x00010203, 0x10111213, 0x20212223, 0x30313233⟩ = ⟨0x00112233, 0x10213203, 0x20310213, 0x30011223⟩ ∧
      invShiftRows ⟨0x00010203, 0x10111213, 0x20212223, 0x30313233⟩ =
        ⟨0x00312213, 0x10013223, 0x20110233, 0x30211203⟩ := by decide

theorem test_loadState :
    loadState [0x00, 0x11, 0x22, 0x33, 0x44, 0x55, 0x66, 0x77, 0x88, 0x99, 0xaa, 0xbb, 0xcc, 0xdd, 0xee, 0xff] =
        ⟨0x00112233, 0x44556677, 0x8899aabb, 0xccddeeff⟩ ∧
      storeState ⟨0x69c4e0d8, 0x6a7b0430, 0xd8cdb780, 0x70b4c55a⟩ =
        [0x69, 0xc4, 0xe0, 0xd8, 0x6a, 0x7b, 0x04, 0x30, 0xd8, 0xcd, 0xb7, 0x80, 0x70, 0xb4, 0xc5, 0x5a] := by decide

theorem test_counterBlock :
    counterBlock [0, 0, 0, 0x30] [0, 0, 0, 0, 0, 0, 0, 0] 1 = [0, 0, 0, 0x30, 0, 0, 0, 0, 0, 0, 0, 0, 0, 0, 0, 1] := by
  decide

/-! ### Key schedules (spec/95_test_vectors.md section 2.5) -/

/-- The whole table of a 16-byte key, both halves. -/
theorem test_expandKey_128 : encryptionTable sampleKey = sampleEk ∧ (expandKey sampleKey).dk = sampleDk := by
  decide +kernel

/-- A 24-byte key: no extra `SubWord` at `i % 6 = 4`; last group. -/
theorem test_expandKey_192 :
    wordAt (encryptionTable ((List.range 24).map (BitVec.ofNat 8))) 10 = 0x4856e2e9 ∧
      wordAt (encryptionTable ((List.range 24).map (BitVec.ofNat 8))) 51 = 0xe3a41d5d := by decide +kernel

/-- A 32-byte key: the extra `SubWord` at `i % 8 = 4`; last group; a word of the decryption table. -/
theorem test_expandKey_256 :
    wordAt (encryptionTable ((List.range 32).map (BitVec.ofNat 8))) 12 = 0x1651a8cd ∧
      wordAt (encryptionTable ((List.range 32).map (BitVec.ofNat 8))) 59 = 0x6d68de36 ∧
      wordAt (expandKey ((List.range 32).map (BitVec.ofNat 8))).dk 55 = 0x2558016e := by decide +kernel

/-! ### One command each (spec/95_test_vectors.md sections 2.7 to 2.9) -/

/-- A 16-byte key is accepted; a 17-byte key is not, and an empty one is not. -/
theorem test_kexp_answers :
    response (exec (.kexp sampleKey) State.reset) = [0, 0, 0, 0, 0, 0, 0, 0] ∧ response (exec (.kexp (List.replicate
      17 0)) loaded) = [1, 0, 0, 0, 0, 0, 0, 0] ∧ response (exec (.kexp []) loaded) = [1, 0, 0, 0, 0, 0, 0, 0] := by decide +kernel

/-- What `KEXP` commits. -/
theorem test_kexp_commits :
    (match exec (.kexp sampleKey) State.reset with
      | .next t => t.slot.kv && t.slot.nk == 4 && t.slot.nr == 10 && t.slot.ekWord 43 == 0xb6630ca6 &&
          t.slot.dkWord 4 == 0x2b3708a7
      | .fault _ => false
      | .refused _ => false) = true := by decide +kernel

/-- `BENC` of the first block; without a key `NoKey`. -/
theorem test_benc :
    response (exec (.benc (memRead twoBlocks 0 16)) loaded) = [0, 0, 0, 0, 0, 0, 0, 0x10] ++ [0x3a, 0xd7, 0x7b,
      0xb4, 0x0d, 0x7a, 0x36, 0x60, 0xa8, 0x9e, 0xca, 0xf3, 0x24, 0x66, 0xef, 0x97] ∧ response (exec (.benc
      (memRead twoBlocks 0 16)) State.reset) = [4, 0, 0, 0, 0, 0, 0, 0] := by decide +kernel

/-- `BENC` of 15, 17 and 32 bytes is `InvalidBlockSize`. -/
theorem test_benc_length :
    response (exec (.benc (List.replicate 15 0)) loaded) = [2, 0, 0, 0, 0, 0, 0, 0] ∧ response (exec (.benc
      (List.replicate 17 0)) loaded) = [2, 0, 0, 0, 0, 0, 0, 0] ∧ response (exec (.benc twoBlocks) loaded) = [2,
      0, 0, 0, 0, 0, 0, 0] := by decide +kernel

/-- `BDEC` of the plaintext block, not a round trip (section 2.7). -/
theorem test_bdec :
    response (exec (.bdec (memRead twoBlocks 0 16)) loaded) = [0, 0, 0, 0, 0, 0, 0, 0x10] ++ [0x50, 0x05, 0x94,
      0xe2, 0x0d, 0x6d, 0x6c, 0x8c, 0x71, 0x6b, 0x66, 0x7c, 0x38, 0xf0, 0x85, 0xf1] := by decide +kernel

/-- `BDEC` of no bytes is `InvalidBlockSize`. -/
theorem test_bdec_length :
    response (exec (.bdec []) loaded) = [2, 0, 0, 0, 0, 0, 0, 0] := by decide +kernel

/-- `ECBE` of two blocks. -/
theorem test_ecbe :
    response (exec (.ecbe twoBlocks) loaded) = [0, 0, 0, 0, 0, 0, 0, 0x20] ++ [0x3a, 0xd7, 0x7b, 0xb4, 0x0d, 0x7a,
      0x36, 0x60, 0xa8, 0x9e, 0xca, 0xf3, 0x24, 0x66, 0xef, 0x97, 0xf5, 0xd3, 0xd5, 0x85, 0x03, 0xb9, 0x69,
      0x9d, 0xe7, 0x85, 0x89, 0x5a, 0x96, 0xfd, 0xba, 0xaf] := by decide +kernel

/-- `ECBE` of no bytes is `OK` and empty, of 17 bytes `InvalidBlockSize`. -/
theorem test_ecbe_length :
    response (exec (.ecbe []) loaded) = [0, 0, 0, 0, 0, 0, 0, 0] ∧ response (exec (.ecbe (List.replicate 17 0))
      loaded) = [2, 0, 0, 0, 0, 0, 0, 0] := by decide +kernel

/-- `ECBD` of that output. -/
theorem test_ecbd :
    response (exec (.ecbd [0x3a, 0xd7, 0x7b, 0xb4, 0x0d, 0x7a, 0x36, 0x60, 0xa8, 0x9e, 0xca, 0xf3, 0x24, 0x66, 0xef,
      0x97, 0xf5, 0xd3, 0xd5, 0x85, 0x03, 0xb9, 0x69, 0x9d, 0xe7, 0x85, 0x89, 0x5a, 0x96, 0xfd, 0xba, 0xaf])
      loaded) = [0, 0, 0, 0, 0, 0, 0, 0x20] ++ twoBlocks := by decide +kernel

/-- `CBCE` of two blocks. -/
theorem test_cbce :
    response (exec (.cbce countingIv twoBlocks) loaded) = [0, 0, 0, 0, 0, 0, 0, 0x20] ++ [0x76, 0x49, 0xab, 0xac,
      0x81, 0x19, 0xb2, 0x46, 0xce, 0xe9, 0x8e, 0x9b, 0x12, 0xe9, 0x19, 0x7d, 0x50, 0x86, 0xcb, 0x9b, 0x50,
      0x72, 0x19, 0xee, 0x95, 0xdb, 0x11, 0x3a, 0x91, 0x76, 0x78, 0xb2] := by decide +kernel

/-- A bad IV wins over a bad message length. -/
theorem test_cbce_lengths :
    response (exec (.cbce (List.replicate 15 0) (List.replicate 17 0)) loaded) = [3, 0, 0, 0, 0, 0, 0, 0] ∧ response
      (exec (.cbce (List.replicate 16 0) (List.replicate 17 0)) loaded) = [2, 0, 0, 0, 0, 0, 0, 0] := by decide +kernel

/-- `CBCD` of that output: the chain is the ciphertext. -/
theorem test_cbcd :
    response (exec (.cbcd countingIv [0x76, 0x49, 0xab, 0xac, 0x81, 0x19, 0xb2, 0x46, 0xce, 0xe9, 0x8e, 0x9b, 0x12,
      0xe9, 0x19, 0x7d, 0x50, 0x86, 0xcb, 0x9b, 0x50, 0x72, 0x19, 0xee, 0x95, 0xdb, 0x11, 0x3a, 0x91, 0x76,
      0x78, 0xb2]) loaded) = [0, 0, 0, 0, 0, 0, 0, 0x20] ++ twoBlocks := by decide +kernel

/-- The known answer of spec/95_test_vectors.md section 1.2, on its own key. -/
theorem test_ctre :
    (match exec (.kexp [0xae, 0x68, 0x52, 0xf8, 0x12, 0x10, 0x67, 0xcc, 0x4b, 0xf7, 0xa5, 0x76, 0x55, 0x77, 0xf3, 0x9e]) State.reset with
      | .next s => response (exec (.ctre [0, 0, 0, 0x30] [0, 0, 0, 0, 0, 0, 0, 0]
          [0x53, 0x69, 0x6e, 0x67, 0x6c, 0x65, 0x20, 0x62, 0x6c, 0x6f, 0x63, 0x6b, 0x20, 0x6d, 0x73, 0x67]) { s with output := [] })
      | .fault _ => []
      | .refused _ => []) =
      [0, 0, 0, 0, 0, 0, 0, 0x10] ++
        [0xe4, 0x09, 0x5d, 0x4f, 0xb7, 0xa7, 0xb3, 0x79, 0x2d, 0x61, 0x75, 0xa3, 0x26, 0x13, 0x11, 0xb8] := by
  decide +kernel

/-- A nonce of 3 bytes or an IV of 7 is `InvalidIvSize`; an empty message is `OK`. -/
theorem test_ctre_lengths :
    response (exec (.ctre [0, 0, 3] (List.replicate 8 0) [1]) loaded) = [3, 0, 0, 0, 0, 0, 0, 0] ∧ response (exec
      (.ctre (List.replicate 4 0) (List.replicate 7 0) [1]) loaded) = [3, 0, 0, 0, 0, 0, 0, 0] ∧ response (exec
      (.ctre (List.replicate 4 0) (List.replicate 8 0) []) loaded) = [0, 0, 0, 0, 0, 0, 0, 0] := by decide +kernel

/-- Three counter blocks, the last partial (section 2.8, last CTR row with a message), through the opcode `CTRD`. -/
theorem test_ctrd :
    (match exec (.kexp [0x76, 0x91, 0xbe, 0x03, 0x5e, 0x50, 0x20, 0xa8, 0xac, 0x6e, 0x61, 0x85, 0x29, 0xf9, 0xa0, 0xdc]) State.reset with
      | .next s => (response (exec (.ctrd [0x00, 0xe0, 0x01, 0x7b] [0x27, 0x77, 0x7f, 0x3f, 0x4a, 0x17, 0x86, 0xf0]
          ((List.range 36).map (BitVec.ofNat 8))) { s with output := [] })).drop 4
      | .fault _ => []
      | .refused _ => []) =
      [0, 0, 0, 0x24] ++
        [0xc1, 0xcf, 0x48, 0xa8, 0x9f, 0x2f, 0xfd, 0xd9, 0xcf, 0x46, 0x52, 0xe9, 0xef, 0xdb, 0x72, 0xd7,
          0x45, 0x40, 0xa4, 0x2b, 0xde, 0x6d, 0x78, 0x36, 0xd5, 0x9a, 0x5c, 0xea, 0xae, 0xf3, 0x10,
          0x53, 0x25, 0xb2, 0x07, 0x2f] := by
  decide +kernel

/-! ### The step -/

/-- `BENC` before any key, as the first command of program 1 (section 4) with a shorter operand; the next frame's bytes
are left. -/
theorem test_step_noKey :
    response (step (withBytes State.reset ([0x10, 0, 0, 0, 0, 0, 0, 1, 7] ++ [0x20]))) = [4, 0, 0, 0, 0, 0, 0, 0] ∧
      (match step (withBytes State.reset ([0x10, 0, 0, 0, 0, 0, 0, 1, 7] ++ [0x20])) with
        | .next t => t.input == [.byte 0x20]
        | .fault _ => false
        | .refused _ => false) = true := by decide

/-- An illegal command before `NoKey` (section 2.9); its operand byte is consumed. -/
theorem test_step_illegal :
    (match step (withBytes State.reset ([0x10, 1, 0, 0, 0, 0, 0, 1, 7] ++ [0x20])) with
      | .next t => t.output == [5, 0, 0, 0, 0, 0, 0, 0] && t.input == [.byte 0x20]
      | .fault _ => false
      | .refused _ => false) = true := by decide

/-- A reset event that strikes while the command of a whole frame is in progress abandons it without a response; the
same frame is answered when the event strikes after its response (R150). -/
theorem test_step_reset_abandons :
    (match step { loaded with input := ([0x20, 0, 0, 0, 0, 0, 0, 0] : List Byte).map .byte ++ [.reset 1, .byte 0x20] } with
      | .next t => !t.slot.kv && t.input == [.byte 0x20] && t.output == []
      | .fault _ => false
      | .refused _ => false) = true ∧
    (match step { loaded with input := ([0x20, 0, 0, 0, 0, 0, 0, 0] : List Byte).map .byte ++ [.reset 0] } with
      | .next t => t.slot.kv && t.input == [.reset 0] && t.output == [0, 0, 0, 0, 0, 0, 0, 0]
      | .fault _ => false
      | .refused _ => false) = true := by decide +kernel

/-- A reset event forgets a partial frame and the key (R150). -/
theorem test_step_reset :
    (match step { loaded with input := [.byte 0x10, .byte 0, .reset 0, .byte 0x20] } with
      | .next t => !t.slot.kv && t.input == [.byte 0x20] && t.output == []
      | .fault _ => false
      | .refused _ => false) = true := by decide

/-! ### The assembler (spec/30_encoding.md sections 7 and 8) -/

theorem test_assemble_ctre :
    assembleLine "CTRE nonce=00000030, iv=0000000000000000, data=\"Single block msg\"" =
      (hexBytes "400004080000001000000030000000000000000053696e676c6520626c6f636b206d7367".toList).map fun f => [f] := by
  decide +kernel

theorem test_assemble_directive :
    assembleLine ".frame op=10, a=00, d=0102" = some [[0x10, 0, 1, 0, 0, 0, 0, 2, 0, 1, 2]] ∧
      assembleLine "BENC key=00" = none := by decide +kernel

theorem test_assemble_pseudo :
    assembleLine "CBCENC key=00, iv=01, data=" = some [[1, 0, 1, 0, 0, 0, 0, 0, 0], [0x30, 0, 1, 0, 0, 0, 0, 0, 1]] := by
  decide +kernel

theorem test_responseText :
    responseText .ok [0x69, 0xc4] = "-> OK 69c4".toList ∧
      responseText (.error .invalidBlockSize) [] = "-> InvalidBlockSize".toList := by decide +kernel

/-- A pseudo-command with a bad key answers `InvalidKeySize` and sends nothing more (R52). -/
theorem test_runPseudo_bad_key : response (runPseudo (.ecbenc [] []) loaded) = [1, 0, 0, 0, 0, 0, 0, 0] := by decide

/-! ### Witnesses: concrete states and operands that meet the hypotheses of the obligations -/

/-- The sample slot holds the sample key: its words are those of spec/95_test_vectors.md section 2.5, and they satisfy
the recurrences of R92 and R93. -/
theorem sampleSlot_holds_key : KeyHeld sampleKey sampleSlot := by
  have he : ∀ i, i < 44 → sampleSlot.ekWord i = wordAt sampleEk i := fun i hi =>
    storeWord_storeTable 44 sampleEk (Config.freeEk 0) i hi (by decide)
  have hd : ∀ i, i < 44 → sampleSlot.dkWord i = wordAt sampleDk i := fun i hi =>
    storeWord_storeTable 44 sampleDk (Config.freeDk 0) i hi (by decide)
  have h0 : ∀ i, i < 4 → wordAt sampleEk i = packWord (byteOf sampleKey (4 * i)) (byteOf sampleKey (4 * i + 1))
      (byteOf sampleKey (4 * i + 2)) (byteOf sampleKey (4 * i + 3)) := by decide +kernel
  have h1 : ∀ i, i < 44 → 4 ≤ i → wordAt sampleEk i = wordAt sampleEk (i - 4) ^^^
      (if i % 4 = 0 then subWord (rotWord (wordAt sampleEk (i - 1))) ^^^ ((rcon (i / 4 - 1)).setWidth 32 <<< 24)
        else wordAt sampleEk (i - 1)) := by decide +kernel
  have h2 : ∀ i, i < 44 → wordAt sampleDk i =
      if 4 ≤ i ∧ i < 40 then invMixColumn (wordAt sampleEk i) else wordAt sampleEk i := by decide +kernel
  refine ⟨.inl rfl, rfl, rfl, rfl, ⟨fun i hi => ?_, fun i hi hi' => ⟨fun h => ?_, fun _ h => ?_, fun h _ => ?_⟩⟩,
    fun i hi => ⟨fun h => ?_, fun h => ?_⟩⟩
  · change i < 4 at hi
    rw [he i (by omega), h0 i hi]
  · change 4 ≤ i at hi
    change i < 44 at hi'
    change i % 4 = 0 at h
    change sampleSlot.ekWord i = sampleSlot.ekWord (i - 4) ^^^ _
    rw [he i hi', he (i - 4) (by omega), he (i - 1) (by omega), h1 i hi' hi, if_pos h]
    rfl
  · change 6 < 4 at h
    omega
  · change 4 ≤ i at hi
    change i < 44 at hi'
    change i % 4 ≠ 0 at h
    change sampleSlot.ekWord i = sampleSlot.ekWord (i - 4) ^^^ _
    rw [he i hi', he (i - 4) (by omega), he (i - 1) (by omega), h1 i hi' hi, if_neg h]
  · change i < 44 at hi
    change 4 ≤ i ∧ i < 40 at h
    rw [he i hi, hd i hi, h2 i hi, if_pos h]
  · change i < 44 at hi
    change i < 4 ∨ 40 ≤ i at h
    rw [he i hi, hd i hi, h2 i hi, if_neg (by omega)]

/-- A header that matches no row, one for each reason. -/
theorem witness_no_row :
    (∀ o : Op, (0x0200000000000000 : BitVec 64) &&& opMask o ≠ opMatch o) ∧
      (∀ o : Op, (0x1001000000000000 : BitVec 64) &&& opMask o ≠ opMatch o) ∧
      (∀ o : Op, (0x3000000100000000 : BitVec 64) &&& opMask o ≠ opMatch o) := by
  refine ⟨?_, ?_, ?_⟩ <;> intro o <;> cases o <;> decide

theorem witness_DecodeInvertsEncode :
    wellFormed (.kexp (List.replicate 255 0)) = true ∧ wellFormed (.ctre (List.replicate 255 0) (List.replicate 255 0) [])
      = true ∧ wellFormed (.ecbe (List.replicate 4294967295 0)) = true :=
  ⟨by decide +kernel, by decide +kernel, (wellFormed_ecbe_replicate 4294967295).2.trans (by decide)⟩

theorem witness_EncodeInvertsDecode :
    decode [0x30, 0, 1, 0, 0, 0, 0, 2, 0x0a, 0x0b, 0x0c, 0x0d] = .command (.cbce [0x0a] [0x0b, 0x0c]) 11 := by decide

/-- A header that matches two rows' premise in one row, and a whole illegal frame with operand bytes and more after it. -/
theorem witness_HeaderDecodesByMaskAndMatch :
    (0x1000000000000000 : BitVec 64) &&& opMask .benc = opMatch .benc ∧
      ∃ (h : BitVec 64) (operands more : List Byte) (s : State),
        (∀ o : Op, h &&& opMask o ≠ opMatch o) ∧ operands.length = operandBytes (headerFields h) ∧
        bytesInTime s.input = headerToBytes (headerFields h) ++ operands ++ more :=
  ⟨by decide, 0x1001000000000001, [7], [1],
    withBytes State.reset (headerToBytes (headerFields 0x1001000000000001) ++ [7] ++ [1]),
    by intro o; cases o <;> decide, by decide, bytesInTime_bytes _⟩

/-- One header for each clause of R47: unknown opcode, reserved byte, each unused operand. -/
theorem witness_ReservedEncodingsAreIllegal :
    ∀ h ∈ ([⟨0x02, 0, 0, 0, 0⟩, ⟨0xff, 0, 0, 0, 1⟩, ⟨0x41, 1, 0, 0, 0⟩, ⟨0x01, 0, 16, 1, 0⟩, ⟨0x01, 0, 16, 0, 1⟩,
        ⟨0x10, 0, 1, 0, 16⟩, ⟨0x11, 0, 0, 1, 16⟩, ⟨0x20, 0, 1, 0, 0⟩, ⟨0x21, 0, 0, 1, 0⟩, ⟨0x30, 0, 16, 1, 0⟩,
        ⟨0x31, 0, 16, 1, 0⟩] : List Header),
      ((h.op ≠ 0x01 ∧ h.op ≠ 0x10 ∧ h.op ≠ 0x11 ∧ h.op ≠ 0x20 ∧ h.op ≠ 0x21 ∧ h.op ≠ 0x30 ∧ h.op ≠ 0x31 ∧ h.op ≠ 0x40 ∧
          h.op ≠ 0x41) ∨
        h.rsv ≠ 0 ∨ (h.op = 0x01 ∧ (h.blen ≠ 0 ∨ h.dlen ≠ 0)) ∨
        ((h.op = 0x10 ∨ h.op = 0x11 ∨ h.op = 0x20 ∨ h.op = 0x21) ∧ (h.alen ≠ 0 ∨ h.blen ≠ 0)) ∨
        ((h.op = 0x30 ∨ h.op = 0x31) ∧ h.blen ≠ 0)) ∧
      ∃ (operands more : List Byte) (s : State),
        operands.length = h.alen.toNat + h.blen.toNat + h.dlen.toNat ∧
        bytesInTime s.input = headerToBytes h ++ operands ++ more := by
  intro h hm
  constructor
  · revert h
    decide
  · exact ⟨List.replicate (h.alen.toNat + h.blen.toNat + h.dlen.toNat) 0, [],
      withBytes State.reset (headerToBytes h ++ List.replicate (h.alen.toNat + h.blen.toNat + h.dlen.toNat) 0 ++ []),
      by simp, bytesInTime_bytes _⟩

/-- A legal header and an illegal one, each with its operand byte and one arrival more. -/
theorem witness_IllegalCommandExactlyWhenNoRow :
    ∀ h ∈ ([0x2000000000000001, 0x2200000000000001] : List (BitVec 64)),
      ∃ (operands more : List Byte) (s : State),
        operands.length = operandBytes (headerFields h) ∧
        bytesInTime s.input = headerToBytes (headerFields h) ++ operands ++ more := by
  intro h hm
  exact ⟨List.replicate (operandBytes (headerFields h)) 0, [1],
    withBytes State.reset (headerToBytes (headerFields h) ++ List.replicate (operandBytes (headerFields h)) 0 ++ [1]),
    by simp, bytesInTime_bytes _⟩

/-- An illegal header; a frame one operand byte short; seven bytes of a header. -/
theorem witness_CutFrameWaitsIllegalFrameConsumed :
    decodeHeader ⟨0x02, 0, 1, 0, 0⟩ = .error (.unknownOp 0x02) ∧
      ([1, 2] : List Byte).length < (0 : Nat) + 0 + (⟨0x20, 0, 0, 0, 3⟩ : Header).dlen.toNat ∧
      ([0x20, 0, 0, 0, 0, 0, 0] : List Byte).length < 8 := by decide

/-- A frame with a reset event after it that catches none of it. -/
theorem witness_StepRunsDecodedCommand :
    ∃ (s : State) (i : Instr) (more : List Byte), wellFormed i = true ∧ bytesInTime s.input = encode i ++ more ∧
      decode (bytesInTime s.input) = .command i 10 :=
  ⟨{ State.reset with input := (encode (.bdec [1, 2])).map .byte ++ [.reset 0] }, .bdec [1, 2], [], by decide, by decide,
    by decide⟩

/-- A command, an illegal command and an unfinished frame have arrived. -/
theorem witness_StepAnswersEveryFrame :
    (∃ s t i n, decode (bytesInTime s.input) = .command i n ∧ step s = .next t) ∧
      (∃ s t why n, decode (bytesInTime s.input) = .illegal why n ∧ step s = .next t) ∧
      (∃ s t, decode (bytesInTime s.input) = .incomplete ∧ step s = .next t) :=
  ⟨⟨withBytes State.reset [0x20, 0, 0, 0, 0, 0, 0, 0], _, .ecbe [], 8, by decide, rfl⟩,
    ⟨withBytes State.reset [0x02, 0, 0, 0, 0, 0, 0, 0], _, .unknownOp 2, 8, by decide, rfl⟩,
    ⟨withBytes State.reset [0x20, 0, 0, 0, 0, 0, 0], _, by decide, rfl⟩⟩

/-- A command, an illegal frame with an operand byte, a command, and a byte of the next frame. -/
theorem witness_FramesRunInOrder :
    ∃ (rs : List Request) (more : List Byte) (s : State), rs.length = 3 ∧ (∀ r ∈ rs, r.WellDelimited) ∧
      bytesInTime s.input = rs.flatMap Request.frame ++ more :=
  ⟨[.command (.kexp []), .illegal ⟨0x02, 0, 1, 0, 0⟩ [9], .command (.ecbe [1])], [1],
    withBytes State.reset (([.command (.kexp []), .illegal ⟨0x02, 0, 1, 0, 0⟩ [9], .command (.ecbe [1])] :
      List Request).flatMap Request.frame ++ [1]), rfl,
    by
      simp only [List.forall_mem_cons]
      exact ⟨(by decide : wellFormed (.kexp []) = true), ⟨⟨_, rfl⟩, by decide⟩,
        (by decide : wellFormed (.ecbe [1]) = true), by simp⟩,
    bytesInTime_bytes _⟩

/-- Of a mode command with the longest message and of a key (R45: `OLEN` fits its field); an illegal frame. -/
theorem witness_ResponseFrameShape :
    wellFormed (.ecbe (List.replicate 4294967295 0)) = true ∧ wellFormed (.kexp sampleKey) = true ∧
      decode (bytesInTime (withBytes loaded [0xff, 0, 0, 0, 0, 0, 0, 0]).input) = .illegal (.unknownOp 0xff) 8 :=
  ⟨(wellFormed_ecbe_replicate 4294967295).2.trans (by decide), by decide, by decide⟩

/-- A step that emits the largest code, and one that emits the smallest. -/
theorem witness_OnlySixStatusCodes :
    (∃ s t, step s = .next t ∧ responseStatus s t = some 0x05) ∧
      (∃ s t, step s = .next t ∧ responseStatus s t = some 0x00) :=
  ⟨⟨withBytes State.reset [0x02, 0, 0, 0, 0, 0, 0, 0], _, rfl, by decide⟩,
    ⟨withBytes loaded [0x20, 0, 0, 0, 0, 0, 0, 0], _, rfl, by decide⟩⟩

/-- Each check of R50 fails, and all succeed, on some operands at the edge of its range. -/
theorem witness_ChecksInOrder :
    loaded.slot.kv = true ∧ State.reset.slot.kv = false ∧ (List.replicate 15 (0 : Byte)).length ≠ 16 ∧
      (List.replicate 17 (0 : Byte)).length % 16 ≠ 0 ∧ (List.replicate 16 (0 : Byte)).length % 16 = 0 ∧
      ([] : List Byte).length % 16 = 0 := by decide

/-- `KEXP` of 15 and of 16 bytes. -/
theorem witness_InvalidKeySizeExactly :
    (∃ t, exec (.kexp (List.replicate 15 0)) loaded = .next t ∧ responseStatus loaded t = some 0x01) ∧
      (∃ t, exec (.kexp (List.replicate 16 0)) loaded = .next t ∧ responseStatus loaded t = some 0x00) :=
  ⟨⟨_, rfl, by decide +kernel⟩, ⟨_, rfl, by decide +kernel⟩⟩

/-- One command for each of (a), (b) and (c). -/
theorem witness_InvalidBlockSizeExactly :
    (∃ t, exec (.benc (List.replicate 17 0)) loaded = .next t ∧ responseStatus loaded t = some 0x02) ∧
      (∃ t, exec (.ecbd [0]) loaded = .next t ∧ responseStatus loaded t = some 0x02) ∧
      (∃ t, exec (.cbce countingIv [0]) loaded = .next t ∧ responseStatus loaded t = some 0x02) :=
  ⟨⟨_, rfl, by decide +kernel⟩, ⟨_, rfl, by decide +kernel⟩, ⟨_, rfl, by decide +kernel⟩⟩

/-- One command for each of (a) and (b), nonce and IV. -/
theorem witness_InvalidIvSizeExactly :
    (∃ t, exec (.cbcd [0] [0]) loaded = .next t ∧ responseStatus loaded t = some 0x03) ∧
      (∃ t, exec (.ctre [0, 0, 0] (List.replicate 8 0) []) loaded = .next t ∧ responseStatus loaded t = some 0x03) ∧
      (∃ t, exec (.ctrd [0, 0, 0, 0] (List.replicate 9 0) []) loaded = .next t ∧
        responseStatus loaded t = some 0x03) :=
  ⟨⟨_, rfl, by decide +kernel⟩, ⟨_, rfl, by decide +kernel⟩, ⟨_, rfl, by decide +kernel⟩⟩

theorem witness_NoKeyBeforeAnyOtherCheck :
    (∀ key, (Instr.cbce [] [0]) ≠ .kexp key) ∧ State.reset.slot.kv = false ∧
      ∃ t, exec (.cbce [] [0]) State.reset = .next t ∧ responseStatus State.reset t = some 0x04 :=
  ⟨nofun, rfl, _, rfl, by decide⟩

/-- A command's error with a key held, and an illegal command. -/
theorem witness_ErrorsHaveNoEffect :
    (∃ s t, s.slot.kv = true ∧ step s = .next t ∧
        responseStatus s t = some (statusCode (.error .invalidBlockSize))) ∧
      (∃ s t, step s = .next t ∧ responseStatus s t = some (statusCode (.error .illegalCommand))) :=
  ⟨⟨withBytes loaded [0x10, 0, 0, 0, 0, 0, 0, 1, 7], _, rfl, rfl, by decide +kernel⟩,
    ⟨withBytes State.reset [0x02, 0, 0, 0, 0, 0, 0, 0], _, rfl, by decide⟩⟩

/-- The three legal lengths, and lengths beside them. -/
theorem witness_KexpLoadsSchedule :
    sampleKey.length = 16 ∧ (List.replicate 24 (0 : Byte)).length = 24 ∧ (List.replicate 32 (0 : Byte)).length = 32 := by
  decide

/-- Lengths beside the legal ones; an illegal `KEXP` frame for each unused operand. -/
theorem witness_FailedKexpKeepsKey :
    (∀ n ∈ [0, 15, 17, 23, 25, 31, 33, 255], (List.replicate n (0 : Byte)).length ≠ 16 ∧
      (List.replicate n (0 : Byte)).length ≠ 24 ∧ (List.replicate n (0 : Byte)).length ≠ 32) ∧
      (∀ h ∈ ([⟨0x01, 0, 16, 1, 0⟩, ⟨0x01, 0, 3, 0, 1⟩] : List Header), h.op = 0x01 ∧ (h.blen ≠ 0 ∨ h.dlen ≠ 0) ∧
        ∃ (operands more : List Byte) (s : State),
          operands.length = h.alen.toNat + h.blen.toNat + h.dlen.toNat ∧
          bytesInTime s.input = headerToBytes h ++ operands ++ more) := by
  refine ⟨by simp, fun h hm => ⟨?_, ?_, List.replicate (h.alen.toNat + h.blen.toNat + h.dlen.toNat) 0, [],
    withBytes State.reset (headerToBytes h ++ List.replicate (h.alen.toNat + h.blen.toNat + h.dlen.toNat) 0 ++ []),
    by simp, bytesInTime_bytes _⟩⟩
  · revert h
    decide
  · revert h
    decide

/-- A successful `KEXP`, a failed one, and a cipher command. -/
theorem witness_OnlySuccessfulKexpWritesKeySlot :
    (∃ t, exec (.kexp sampleKey) State.reset = .next t ∧ responseStatus State.reset t = some 0x00) ∧
      (∃ t, exec (.kexp []) loaded = .next t ∧ responseStatus loaded t ≠ some 0x00) ∧
      (∃ t, exec (.ecbe []) loaded = .next t) := ⟨⟨_, rfl, by decide +kernel⟩, ⟨_, rfl, by decide⟩, ⟨_, rfl⟩⟩

/-- A state with a key that satisfies the invariant, and the step of a command from it. -/
theorem witness_StepKeepsKeyInvariant :
    Inv (withBytes loaded [0x20, 0, 0, 0, 0, 0, 0, 0]) ∧
      ∃ t, step (withBytes loaded [0x20, 0, 0, 0, 0, 0, 0, 0]) = .next t :=
  ⟨⟨fun _ => ⟨sampleKey, sampleSlot_holds_key⟩, by
    simp [BufferInv, withBytes, loaded, State.reset, Transient.atReset]⟩, _, rfl⟩

theorem witness_KexpDependsOnKeyOnly :
    ∃ s t u, sampleKey.length = 16 ∧ exec (.kexp sampleKey) State.reset = .next s ∧
      exec (.kexp sampleKey) s = .next t ∧ exec (.kexp sampleKey) loaded = .next u :=
  ⟨_, _, _, rfl, rfl, rfl, rfl⟩

/-- With a key: an empty message, one block and two. -/
theorem witness_whole_blocks :
    loaded.slot.kv = true ∧ ([] : List Byte).length % 16 = 0 ∧ (memRead twoBlocks 0 16).length % 16 = 0 ∧
      twoBlocks.length % 16 = 0 ∧ 16 * 1 < twoBlocks.length := by decide

/-- The last case of `CbcEncryptChainsCiphertext`, `CbcDecryptChainsCiphertext` and `EcbTransformsEachBlock`. -/
theorem witness_CbcChains : loaded.slot.kv = true ∧ countingIv.length = 16 ∧ twoBlocks.length % 16 = 0 := by decide

/-- The last case of `CtrXorsKeystream`, with a message whose last block has one byte. -/
theorem witness_CtrXorsKeystream :
    loaded.slot.kv = true ∧ ([0, 0, 0, 0x30] : List Byte).length = 4 ∧ (List.replicate 8 (0 : Byte)).length = 8 ∧
      16 * 1 < (List.replicate 17 (0 : Byte)).length := by decide

theorem witness_CipherCommandsRepeat :
    (∀ key, (Instr.ecbe []) ≠ .kexp key) ∧ ∃ t u, exec (.ecbe []) loaded = .next t ∧ exec (.ecbe []) t = .next u :=
  ⟨nofun, _, _, rfl, rfl⟩

/-- Two machines that differ in the transient state, the counter and, with no key, in `NK`; and one with a key. -/
theorem witness_HiddenStateIsNotObservable :
    ∃ s s' t t' : State, s ≠ s' ∧ s.input = s'.input ∧ SameKey s.slot s'.slot ∧ step s = .next t ∧
      step s' = .next t' :=
  ⟨withBytes State.reset [0x20, 0, 0, 0, 0, 0, 0, 0],
    { withBytes State.reset [0x20, 0, 0, 0, 0, 0, 0, 0] with
        slot := { KeySlot.atReset with nk := 6 }, work := { Transient.atReset with ctr := 9 }, draws := 3 },
    _, _, by decide, rfl, ⟨rfl, fun h => by simp [withBytes, State.reset, KeySlot.atReset] at h⟩, rfl, rfl⟩

theorem witness_DirectionsReadOneTable :
    (∃ t, (Instr.ctrd [] [] []).op = .ctrd ∧ exec (.ctrd [] [] []) loaded = .next t) ∧
      (∃ t, (Instr.cbcd [] []).op = .cbcd ∧ exec (.cbcd [] []) loaded = .next t) := ⟨⟨_, rfl, rfl⟩, ⟨_, rfl, rfl⟩⟩

theorem witness_DecryptInvertsEncrypt : KeyHeld sampleKey sampleSlot ∧ (memRead twoBlocks 0 16).length = 16 :=
  ⟨sampleSlot_holds_key, by decide⟩

/-- The sample key's tables, and tables with no middle round. -/
theorem witness_StraightInverseAgrees :
    DecryptionWords 10 sampleSlot.ekWord sampleSlot.dkWord ∧ DecryptionWords 0 (fun _ => 1) (fun _ => 1) :=
  ⟨sampleSlot_holds_key.2.2.2.2.2, fun i _ => ⟨fun h => by omega, fun _ => rfl⟩⟩

theorem witness_ModesRoundTrip :
    KeyHeld sampleKey loaded.slot ∧ twoBlocks.length % 16 = 0 ∧ countingIv.length = 16 ∧
      ([0, 0, 0, 1] : List Byte).length = 4 ∧ (List.replicate 8 (0 : Byte)).length = 8 :=
  ⟨sampleSlot_holds_key, by decide, by decide, by decide, by decide⟩

theorem witness_CtrPrefixProperty :
    ∃ t u c d, loaded.slot.kv = true ∧ ([0, 0, 0, 1] : List Byte).length = 4 ∧ (List.replicate 8 (0 : Byte)).length = 8 ∧
      exec (.ctre [0, 0, 0, 1] (List.replicate 8 0) [5]) loaded = .next t ∧ Answered loaded t .ok c ∧
      exec (.ctre [0, 0, 0, 1] (List.replicate 8 0) (([5] : List Byte).take 0)) loaded = .next u ∧
      Answered loaded u .ok d :=
  ⟨_, _, _, _, rfl, rfl, rfl, rfl, ⟨rfl, rfl⟩, rfl, ⟨rfl, rfl⟩⟩

/-- The sample key's rounds; the fewest rounds the statements speak of. -/
theorem witness_RunsRounds :
    1 ≤ sampleSlot.nr.toNat ∧ 1 ≤ ({ KeySlot.atReset with nr := 1 } : KeySlot).nr.toNat := by decide

/-- The lanes at both ends. -/
theorem witness_lanes : (0 : Nat) < 4 ∧ (3 : Nat) < 4 := by decide

theorem witness_LoadStoreStateInverse : countingIv.length = 16 := by decide

/-- A reset event with no bytes before it, one after all but the last byte of a frame, one that catches a byte of a whole
frame, and one that catches more bytes than there are. -/
theorem witness_ResetEventDropsKeyAndPartialFrame :
    decode (([] : List Byte).take 0) = .incomplete ∧
      decode (([0x10, 0, 0, 0, 0, 0, 0, 1] : List Byte).take (8 - 0)) = .incomplete ∧
      decode (([0x20, 0, 0, 0, 0, 0, 0, 0] : List Byte).take (8 - 1)) = .incomplete ∧
      decode (([0x20, 0, 0, 0, 0, 0, 0, 0] : List Byte).take (8 - 9)) = .incomplete ∧
      ∃ s : State, s.slot.kv = true ∧
        s.input = ([0x20, 0, 0, 0, 0, 0, 0, 0] : List Byte).map .byte ++ .reset 1 :: [.byte 3] :=
  ⟨by decide, by decide, by decide, by decide,
    { loaded with input := ([0x20, 0, 0, 0, 0, 0, 0, 0] : List Byte).map .byte ++ .reset 1 :: [.byte 3] }, rfl, rfl⟩

/-- A whole frame of a command, and one of an illegal command, with an operand byte each and an event for either clause. -/
theorem witness_ResetAbandonsCommandInProgress :
    ∀ h ∈ ([⟨0x20, 0, 0, 0, 1⟩, ⟨0x02, 0, 1, 0, 0⟩] : List Header), ∀ lost ∈ [0, 1, 9],
      ∃ (operands : List Byte) (rest : List Arrival) (s : State), operands.length = operandBytes h ∧
        s.input = (headerToBytes h ++ operands).map .byte ++ .reset lost :: rest := by
  intro h _ lost _
  exact ⟨List.replicate (operandBytes h) 0, [],
    { loaded with input := (headerToBytes h ++ List.replicate (operandBytes h) 0).map .byte ++ .reset lost :: [] },
    by simp, rfl⟩

/-- A step that clears `KV`, and one that sets it. -/
theorem witness_KeyValidChangesOnlyByKexpOrReset :
    (∃ s t, step s = .next t ∧ s.slot.kv = true ∧ t.slot.kv = false) ∧
      (∃ s t, step s = .next t ∧ s.slot.kv = false ∧ t.slot.kv = true) :=
  ⟨⟨{ loaded with input := [.reset 0] }, _, rfl, rfl, rfl⟩,
    ⟨withBytes State.reset (encode (.kexp sampleKey)), _, rfl, rfl, rfl⟩⟩

/-- A pseudo-command whose `KEXP` succeeds, and one whose `KEXP` fails. -/
theorem witness_PseudoCommandsLoadThenRun :
    (∃ t, exec (.kexp (pseudoKey (.ecbenc sampleKey []))) State.reset = .next t ∧
        responseStatus State.reset t = some 0x00) ∧
      (∃ t, exec (.kexp (pseudoKey (.ctrdec [] [] [] []))) State.reset = .next t ∧
        responseStatus State.reset t ≠ some 0x00) :=
  ⟨⟨_, rfl, by decide +kernel⟩, ⟨_, rfl, by decide +kernel⟩⟩

end Sys2Proof.Tests.Slice0
end

/-! The key slot (spec/10_state.md R16, R17): what a successful `KEXP` leaves there, and that nothing else writes it -/

namespace Sys2Proof.Machine

theorem legalKeyLength_iff (n : Nat) : legalKeyLength n = true ↔ n = 16 ∨ n = 24 ∨ n = 32 := by
  simp [legalKeyLength, or_assoc]

/-! ### The tables of `expandKey` satisfy the recurrences of R92 and R93 -/

theorem wordAt_map_range (f : Nat → Word) (n i : Nat) (h : i < n) : wordAt ((List.range n).map f) i = f i := by
  simp [wordAt, h]

/-- The first words of the encryption table are the key's (R92). -/
theorem wordAt_encryptionTable_key (key : List Byte) (i : Nat) (h : i < keyWords key.length) :
    wordAt (encryptionTable key) i = wordOfBytes key i := by
  rw [encryptionTable, wordAt_extend_of_lt _ _ _ _ (by simpa using h), wordAt_map_range _ _ _ h]

/-- Every further word of the encryption table comes from two words before it (R92). -/
theorem wordAt_encryptionTable_rec (key : List Byte) (i : Nat) (hnk : 0 < keyWords key.length)
    (h : keyWords key.length ≤ i) (hi : i < tableWords (rounds key.length)) :
    wordAt (encryptionTable key) i =
      wordAt (encryptionTable key) (i - keyWords key.length) ^^^
        scheduleTemp (keyWords key.length) i (wordAt (encryptionTable key) (i - 1)) :=
  wordAt_extend_of_ge _ _ _ i hnk (by simp) (by simpa using h) (by simp; omega)

/-- A word space that agrees with the encryption table as far as the table goes satisfies R92's recurrence. -/
theorem encryptionWords_of_table (key : List Byte) (ek : Nat → Word) (hnk : 0 < keyWords key.length)
    (hek : ∀ i, i < tableWords (rounds key.length) → ek i = wordAt (encryptionTable key) i) :
    EncryptionWords key (keyWords key.length) (rounds key.length) ek := by
  refine ⟨fun i hi => ?_, fun i hi (hlt : i < tableWords (rounds key.length)) => ?_⟩
  · rw [hek i (by simp only [tableWords, rounds]; omega), wordAt_encryptionTable_key key i hi, wordOfBytes]
  · have hrec : ek i = ek (i - keyWords key.length) ^^^ scheduleTemp (keyWords key.length) i (ek (i - 1)) := by
      rw [hek i hlt, hek (i - _) (by omega), hek (i - 1) (by omega), wordAt_encryptionTable_rec key i hnk hi hlt]
    refine ⟨fun h => ?_, fun h h6 => ?_, fun h h' => ?_⟩
    · rw [hrec, scheduleTemp, if_pos h]
    · rw [hrec, scheduleTemp, if_neg (by omega), if_pos ⟨h6, h⟩]
    · rw [hrec, scheduleTemp, if_neg h, if_neg (mt And.symm h')]

/-- Word spaces that agree with a table and its decryption table, as far as these go, are related by R93. -/
theorem decryptionWords_of_table (nr : Nat) (table : List Word) (ek dk : Nat → Word)
    (hek : ∀ i, i < tableWords nr → ek i = wordAt table i)
    (hdk : ∀ i, i < tableWords nr → dk i = wordAt (decryptionTable nr table) i) : DecryptionWords nr ek dk := by
  intro i (hi : i < tableWords nr)
  have hword : dk i = if 4 ≤ i ∧ i < 4 * nr then invMixColumn (ek i) else ek i := by
    rw [hdk i hi, hek i hi, decryptionTable, wordAt_map_range _ _ _ hi]
  exact ⟨fun h => by rw [hword, if_pos h], fun h => by rw [hword, if_neg (by omega)]⟩

/-- Committing the expansion of a key of legal length leaves the slot holding that key (R16, R90, R94). -/
theorem keyHeld_commit_expandKey (key : List Byte) (s : State) (h : legalKeyLength key.length = true) :
    KeyHeld key (commit (expandKey key) s).slot := by
  have hlen := (legalKeyLength_iff _).mp h
  have hfit : tableWords (rounds key.length) ≤ 60 := by simp only [tableWords, rounds, keyWords]; omega
  have hek : ∀ i, i < tableWords (rounds key.length) →
      (commit (expandKey key) s).slot.ekWord i = wordAt (encryptionTable key) i :=
    fun i hi => storeWord_storeTable _ _ _ i hi hfit
  have hdk : ∀ i, i < tableWords (rounds key.length) → (commit (expandKey key) s).slot.dkWord i =
      wordAt (decryptionTable (rounds key.length) (encryptionTable key)) i :=
    fun i hi => storeWord_storeTable _ _ _ i hi hfit
  refine ⟨hlen, rfl, ?_, ?_, encryptionWords_of_table key _ (by simp only [keyWords]; omega) hek, decryptionWords_of_table _ _ _ _ hek hdk⟩
  · exact Nat.mod_eq_of_lt (show key.length / 4 < 2 ^ 4 by omega)
  · exact Nat.mod_eq_of_lt (show key.length / 4 + 6 < 2 ^ 4 by omega)

/-! ### What a response says -/

/-- The status read between two states is that of the response emitted between them (R44). -/
theorem responseStatus_of_output {s t : State} {st : Status} {out : List Byte}
    (h : t.output = s.output ++ responseFrame st out) : responseStatus s t = some (statusCode st) := by
  simp [responseStatus, h]

/-- Only the status `OK` has the code 0 (R130). -/
theorem statusCode_error_ne_zero (e : ErrorKind) : statusCode (.error e) ≠ 0x00 :=
  fun h => Status.noConfusion (statusCode_injective (b := .ok) h)

/-! ### Only a successful `KEXP` writes the slot -/

/-- Settles O21, by the two things a command can do (`exec_cases`): commit the expansion of a key of legal length and
answer `OK`, or answer with the slot as it was; a `KEXP` that does the latter answers an error. -/
theorem onlySuccessfulKexpWritesKeySlot : Obligations.OnlySuccessfulKexpWritesKeySlot := by
  intro i s t hexec
  rcases exec_cases i s with ⟨key, rfl, hlegal, hrun⟩ | ⟨st, out, hrun, hkexp⟩
  · obtain rfl : _ = t := Host.Outcome.next.inj (hrun.symm.trans hexec)
    have hok := responseStatus_of_output (s := s) (answeredState_output .ok [] (commit (expandKey key) s))
    have hheld := keyHeld_commit_expandKey key s hlegal
    refine ⟨.inr ⟨key, rfl, hok, hheld⟩, fun key' heq _ => ?_, fun hne => ?_, fun hbad => ?_, rfl, _, rfl⟩
    · obtain rfl := Instr.kexp.inj heq
      exact hheld
    · exact absurd rfl (hne key)
    · exact absurd hok hbad
  · obtain rfl : _ = t := Host.Outcome.next.inj (hrun.symm.trans hexec)
    have hstatus := responseStatus_of_output (answeredState_output st out s)
    refine ⟨.inl rfl, fun key heq hok => ?_, fun _ => rfl, fun _ => rfl, rfl, _, rfl⟩
    obtain rfl := hkexp (by rw [heq, Instr.op])
    exact absurd (Option.some.inj (hstatus.symm.trans hok)) (statusCode_error_ne_zero _)

end Sys2Proof.Machine

/-! Command frames and responses (spec/30_encoding.md R40 to R50): the rows of the opcode map, frames of illegal commands,
cut frames, runs of frames, and the response to each command -/

namespace Sys2Proof.Machine

/-! ### The opcode map as masks on the header number (R46) -/

/-- Masking the header number masks each field. -/
theorem headerFields_and (a b : BitVec 64) : headerFields (a &&& b) =
    { op := (headerFields a).op &&& (headerFields b).op, rsv := (headerFields a).rsv &&& (headerFields b).rsv,
      alen := (headerFields a).alen &&& (headerFields b).alen,
      blen := (headerFields a).blen &&& (headerFields b).blen,
      dlen := (headerFields a).dlen &&& (headerFields b).dlen } := by
  simp [headerFields, BitVec.ushiftRight_and_distrib]

/-- The five fields hold all 64 bits of the header number (R41). -/
theorem headerFields_injective {a b : BitVec 64} (h : headerFields a = headerFields b) : a = b := by
  simp only [headerFields, Header.mk.injEq] at h
  obtain ⟨hop, hrsv, halen, hblen, hdlen⟩ := h
  bv_omega

/-- A row's mask covers `OP`, `RSV` and the lengths of the operands the row does not use. -/
theorem headerFields_opMask (o : Op) : headerFields (opMask o) =
    { op := BitVec.allOnes 8, rsv := BitVec.allOnes 8, alen := if usesA o then 0 else BitVec.allOnes 8,
      blen := if usesB o then 0 else BitVec.allOnes 8, dlen := if usesD o then 0 else BitVec.allOnes 32 } := by
  cases o <;> rfl

/-- A row's match has the row's opcode and zeros. -/
theorem headerFields_opMatch (o : Op) :
    headerFields (opMatch o) = { op := opcode o, rsv := 0, alen := 0, blen := 0, dlen := 0 } := by
  cases o <;> rfl

/-- A length masked unless its operand is used is zero exactly when it is zero or its operand is used. -/
theorem and_unusedMask_eq_zero_iff {w : Nat} (x : BitVec w) (used : Bool) :
    x &&& (if used then 0 else BitVec.allOnes w) = 0 ↔ (used = false → x = 0) := by
  cases used <;> simp

/-- A header decodes to a row exactly by the row's mask and match (R46). -/
theorem decodeHeader_ok_iff_mask (h : BitVec 64) (o : Op) :
    decodeHeader (headerFields h) = .ok o ↔ h &&& opMask o = opMatch o := by
  have hfields : h &&& opMask o = opMatch o ↔ headerFields (h &&& opMask o) = headerFields (opMatch o) :=
    ⟨congrArg headerFields, headerFields_injective⟩
  rw [hfields, decodeHeader_ok_iff, headerFields_and, headerFields_opMask, headerFields_opMatch, Header.mk.injEq,
    BitVec.and_allOnes, BitVec.and_allOnes, and_unusedMask_eq_zero_iff, and_unusedMask_eq_zero_iff,
    and_unusedMask_eq_zero_iff]

/-! ### Frames of illegal commands (R46 to R48) -/

/-- A header that decodes to no row is rejected. -/
theorem decodeHeader_error_of_not_ok {h : Header} (hno : ∀ o, decodeHeader h ≠ .ok o) :
    ∃ why, decodeHeader h = .error why := by
  cases hd : decodeHeader h with
  | ok o => exact absurd hd (hno o)
  | error why => exact ⟨why, rfl⟩

/-- A whole frame under a rejected header is an illegal command of that length (R48). -/
theorem decode_illegalFrame {h : Header} {operands : List Byte} {why : Reject} (more : List Byte)
    (hd : decodeHeader h = .error why) (hl : operands.length = operandBytes h) :
    decode (headerToBytes h ++ operands ++ more) = .illegal why (frameLength h) := by
  rw [List.append_assoc, decode_headerToBytes, decodeFrame, if_neg (by simp [hl]), hd]

/-- An illegal command is answered by the header of `IllegalCommand` alone, takes its whole frame and leaves the key slot
(R46, R48, R136). -/
theorem step_illegalFrame {h : Header} {operands more : List Byte} {s : State} {why : Reject}
    (hd : decodeHeader h = .error why) (hl : operands.length = operandBytes h)
    (hb : bytesInTime s.input = headerToBytes h ++ operands ++ more) :
    ∃ t, step s = .next t ∧ t.slot = s.slot ∧ t.input = s.input.drop (frameLength h) ∧
      t.output = s.output ++ errorFrame 0x05 :=
  ⟨_, step_illegal (by rw [hb, decode_illegalFrame more hd hl]), rfl, rfl, rfl⟩

/-- Settles O3: a row's mask and match are the fixed fields of `decodeHeader_ok_iff`, so the decoder, a function, picks the
one row a header can match, and a header that matches none is rejected. -/
theorem headerDecodesByMaskAndMatch : Obligations.HeaderDecodesByMaskAndMatch := by
  refine ⟨decodeHeader_ok_iff_mask, fun h o p ho hp => ?_, fun h operands more s hno hl hb => ?_⟩
  · rw [← decodeHeader_ok_iff_mask] at ho hp
    exact Except.ok.inj (ho.symm.trans hp)
  · obtain ⟨why, hd⟩ := decodeHeader_error_of_not_ok fun o => mt (decodeHeader_ok_iff_mask h o).mp (hno o)
    exact step_illegalFrame hd hl hb

/-! ### What a command and a step emit (R40, R44) -/

/-- Every command completes, emits one response and takes nothing further of what has arrived. -/
theorem exec_answered (i : Instr) (s : State) : ∃ t st out, exec i s = .next t ∧ Answered s t st out := by
  rcases exec_cases i s with ⟨key, -, -, hrun⟩ | ⟨st, out, hrun, -⟩
  · exact ⟨_, _, _, hrun, rfl, rfl⟩
  · exact ⟨_, _, _, hrun, rfl, rfl⟩

/-- A step that finds a whole frame in time takes that frame and emits one response. -/
theorem step_wholeFrame {s : State} {n : Nat}
    (h : (∃ i, decode (bytesInTime s.input) = .command i n) ∨ ∃ why, decode (bytesInTime s.input) = .illegal why n) :
    ∃ t st out, step s = .next t ∧ Answered (consume n s) t st out := by
  rcases h with ⟨i, hd⟩ | ⟨why, hd⟩
  · rw [step_command hd]
    exact exec_answered i (consume n s)
  · exact ⟨_, _, _, step_illegal hd, rfl, rfl⟩

/-- A step that finds no whole frame in time emits nothing. -/
theorem step_incomplete {s : State} (h : decode (bytesInTime s.input) = .incomplete) :
    ∃ t, step s = .next t ∧ t.output = s.output := by
  rcases arrivals_split s.input with hi | ⟨rest, hi⟩
  · exact ⟨_, step_idle h hi, rfl⟩
  · exact ⟨_, step_reset h hi, rfl⟩

/-- Every step completes and emits nothing or one response. -/
theorem step_output (s : State) :
    ∃ t, step s = .next t ∧ (t.output = s.output ∨ ∃ st out, t.output = s.output ++ responseFrame st out) := by
  cases hd : decode (bytesInTime s.input) with
  | command i n =>
    obtain ⟨t, st, out, hstep, hout, -⟩ := step_wholeFrame (.inl ⟨i, hd⟩)
    exact ⟨t, hstep, .inr ⟨st, out, hout⟩⟩
  | illegal why n =>
    obtain ⟨t, st, out, hstep, hout, -⟩ := step_wholeFrame (.inr ⟨why, hd⟩)
    exact ⟨t, hstep, .inr ⟨st, out, hout⟩⟩
  | incomplete =>
    obtain ⟨t, hstep, hout⟩ := step_incomplete hd
    exact ⟨t, hstep, .inl hout⟩

/-- Settles O9, by the three things the decoder can find among the bytes in time. -/
theorem stepAnswersEveryFrame : Obligations.StepAnswersEveryFrame := by
  refine ⟨fun s => ?_, fun s t n hframe hstep => ?_, fun s t hd hstep => ?_⟩
  · obtain ⟨t, hstep, -⟩ := step_output s
    exact ⟨t, hstep⟩
  · obtain ⟨t', st, out, hstep', hout, hin⟩ := step_wholeFrame hframe
    obtain rfl : t' = t := Host.Outcome.next.inj (hstep'.symm.trans hstep)
    exact ⟨hin, st, out, hout⟩
  · obtain ⟨t', hstep', hout⟩ := step_incomplete hd
    obtain rfl : t' = t := Host.Outcome.next.inj (hstep'.symm.trans hstep)
    exact hout

/-! ### Reserved encodings and cut frames (R47, R48) -/

/-- Settles O5: a reserved header has none of the nine rows' fixed fields (`decodeHeader_ok_iff`), so its frame is an
illegal command; and whatever a step emits is one response frame, whose bytes 1 to 3 are zero. -/
theorem reservedEncodingsAreIllegal : Obligations.ReservedEncodingsAreIllegal := by
  refine ⟨fun h operands more s hreserved hl hb => ?_, fun s t hstep => ?_⟩
  · have hno : ∀ o, decodeHeader h ≠ .ok o := by
      intro o hok
      obtain ⟨hop, hrsv, ha, hbl, hd⟩ := (decodeHeader_ok_iff h o).mp hok
      cases o <;> simp_all [opcode, usesA, usesB, usesD]
    obtain ⟨why, hd⟩ := decodeHeader_error_of_not_ok hno
    rw [hl]
    exact step_illegalFrame hd hl hb
  · obtain ⟨t', hstep', hout⟩ := step_output s
    obtain rfl : t' = t := Host.Outcome.next.inj (hstep'.symm.trans hstep)
    exact hout.imp_right fun ⟨st, out, h⟩ => ⟨statusCode st, _, h⟩

/-- With nothing arrived but bytes that are no whole frame, the step waits. -/
theorem step_waits {s : State} {bytes : List Byte} (hi : s.input = bytes.map .byte)
    (hd : decode bytes = .incomplete) : step s = .next s := by
  have hlead : leadingBytes s.input = bytes := by
    rw [hi, ← List.append_nil (bytes.map Arrival.byte), leadingBytes_append, leadingBytes_nil, List.append_nil]
  exact step_idle (by rw [hi, bytesInTime_bytes, hd]) (by rw [hlead, hi])

/-- Settles O7: a rejected header's frame is taken whole by `step_illegalFrame`; a frame short of operand bytes or of a
header decodes to nothing, and the step waits. -/
theorem cutFrameWaitsIllegalFrameConsumed : Obligations.CutFrameWaitsIllegalFrameConsumed := by
  refine ⟨fun h operands more s why hd hl hb => ?_, fun h operands s hshort hi => ?_, fun bytes s hshort hi => ?_⟩
  · obtain ⟨t, hstep, hslot, hin, hout⟩ := step_illegalFrame hd hl hb
    rw [hl]
    exact ⟨t, hstep, hin, hslot, hout⟩
  · have hcut : operands.length < operandBytes h := hshort
    exact step_waits hi (by rw [decode_headerToBytes, decodeFrame, if_pos hcut])
  · exact step_waits hi (decode_short hshort)

/-! ### Runs of frames (R35) -/

/-- A command is its row's command with its three operands. -/
theorem build_operands (i : Instr) : build i.op i.operandA i.operandB i.operandD = i := by
  cases i <;> rfl

/-- A command leaves empty the operands its row does not use (R43). -/
theorem operands_of_unused (i : Instr) :
    (usesA i.op = false → i.operandA = []) ∧ (usesB i.op = false → i.operandB = []) ∧
      (usesD i.op = false → i.operandD = []) := by
  cases i <;> simp [Instr.op, Instr.operandA, Instr.operandB, Instr.operandD, usesA, usesB, usesD]

/-- The header the encoder writes for a command. -/
def commandHeader (i : Instr) : Header :=
  { op := opcode i.op, rsv := 0, alen := BitVec.ofNat 8 i.operandA.length, blen := BitVec.ofNat 8 i.operandB.length,
    dlen := BitVec.ofNat 32 i.operandD.length }

theorem encode_eq (i : Instr) :
    encode i = headerToBytes (commandHeader i) ++ (i.operandA ++ (i.operandB ++ i.operandD)) := by
  simp [encode, rawFrame, commandHeader]

/-- The header the encoder writes decodes to the command's row. -/
theorem decodeHeader_commandHeader (i : Instr) : decodeHeader (commandHeader i) = .ok i.op := by
  obtain ⟨ha, hb, hd⟩ := operands_of_unused i
  exact (decodeHeader_ok_iff _ _).mpr ⟨rfl, rfl, fun h => by simp [commandHeader, ha h],
    fun h => by simp [commandHeader, hb h], fun h => by simp [commandHeader, hd h]⟩

/-- The frame of a well-formed command decodes to that command, whatever bytes follow (R41, R42). -/
theorem decode_encode_append {i : Instr} (more : List Byte) (hwf : wellFormed i = true) :
    decode (encode i ++ more) = .command i (encode i).length := by
  obtain ⟨ha, hb, hd⟩ := (wellFormed_iff i).mp hwf
  have hA : (commandHeader i).alen.toNat = i.operandA.length := ofNat_toNat_short ha
  have hB : (commandHeader i).blen.toNat = i.operandB.length := ofNat_toNat_short hb
  have hD : (commandHeader i).dlen.toNat = i.operandD.length := ofNat_toNat_data hd
  have hlen : frameLength (commandHeader i) = (encode i).length := by
    simp [encode_eq, frameLength, operandBytes, Config.headerBytes, hA, hB, hD, Nat.add_assoc]
  rw [← hlen, encode_eq, List.append_assoc, decode_headerToBytes, decodeFrame,
    if_neg (by simp [operandBytes, hA, hB, hD]; omega), decodeHeader_commandHeader]
  simp [hA, hB, hD, build_operands, ← List.drop_drop]

/-- A request whose frame is at the front of the bytes in time is what the step answers, with the frame taken. -/
theorem step_request {r : Request} {more : List Byte} {s : State} (hwell : r.WellDelimited)
    (hb : bytesInTime s.input = r.frame ++ more) : step s = answer r (consume r.frame.length s) := by
  cases r with
  | command i => exact step_command (by rw [hb]; exact decode_encode_append more hwell)
  | illegal h operands =>
    obtain ⟨⟨why, hd⟩, hl⟩ := hwell
    have hlen : (Request.illegal h operands).frame.length = frameLength h := by
      simp [Request.frame, frameLength, Config.headerBytes, hl]
    rw [hlen]
    exact step_illegal (by rw [hb]; exact decode_illegalFrame more hd hl)

/-- A request is answered the same whatever has arrived behind it, and leaves that as it was. -/
theorem answer_withInput (r : Request) (s : State) :
    ∃ t : State, ∀ input, answer r { s with input := input } = .next { t with input := input } := by
  cases r with
  | command i =>
    obtain ⟨t, st, out, hrun, -⟩ := exec_answered i s
    exact ⟨t, fun input => by rw [answer, exec_withInput, hrun]⟩
  | illegal h operands => exact ⟨answeredState (.error .illegalCommand) [] s, fun input => rfl⟩

/-- A run of the machine takes its first step and runs on from there. -/
theorem core_run_succ {s t : State} (k : Nat) (h : step s = .next t) :
    Sys2Proof.core.run (k + 1) s = Sys2Proof.core.run k t := by
  have hcore : Sys2Proof.core.step s = .next t := h
  simp only [Host.Core.run, hcore]

/-- Settles O10, by induction on the requests: the step answers the first one, and the rest are then at the front of what
is left. -/
theorem framesRunInOrder : Obligations.FramesRunInOrder := by
  intro rs more
  induction rs with
  | nil => intro s _ _; rfl
  | cons r rs ih =>
    intro s hwell hb
    rw [List.flatMap_cons, List.append_assoc] at hb
    obtain ⟨t, ht⟩ := answer_withInput r s
    have hstep : step s = .next { t with input := s.input.drop r.frame.length } :=
      (step_request (hwell r List.mem_cons_self) hb).trans (ht _)
    have hrest : bytesInTime (s.input.drop r.frame.length) = rs.flatMap Request.frame ++ more := by
      rw [bytesInTime_drop _ _ (by simp [hb]), hb, List.drop_left]
    have hrun := ih { t with input := s.input.drop r.frame.length }
      (fun q hq => hwell q (List.mem_cons_of_mem r hq)) hrest
    have hanswer : answerAll (r :: rs) { s with input := s.input.drop ((r :: rs).flatMap Request.frame).length } =
        answerAll rs { t with
          input := (s.input.drop r.frame.length).drop (rs.flatMap Request.frame).length } := by
      simp only [answerAll, ht, List.flatMap_cons, List.length_append, List.drop_drop]
    exact (core_run_succ rs.length hstep).trans (hrun.trans hanswer.symm)

/-! ### Output lengths (R45) -/

theorem ecbBlocks_length {f : List Byte → List Byte} (hf : ∀ x, (f x).length = 16) (n : Nat) (x : List Byte) :
    (ecbBlocks f n x).length = 16 * n := by
  induction n generalizing x with
  | zero => rfl
  | succ n ih => rw [ecbBlocks, List.length_append, hf, ih]; omega

theorem cbcEncryptBlocks_length {enc : List Byte → List Byte} (henc : ∀ x, (enc x).length = 16) (n : Nat)
    (cv x : List Byte) : (cbcEncryptBlocks enc n cv x).length = 16 * n := by
  induction n generalizing cv x with
  | zero => rfl
  | succ n ih => rw [cbcEncryptBlocks, List.length_append, henc, ih]; omega

/-- Each output block is as long as its chaining vector: the IV, then the ciphertext block read before. -/
theorem cbcDecryptBlocks_length {dec : List Byte → List Byte} (hdec : ∀ x, (dec x).length = 16) (n : Nat)
    (cv x : List Byte) (hcv : cv.length = 16) (hx : 16 * n ≤ x.length) :
    (cbcDecryptBlocks dec n cv x).length = 16 * n := by
  induction n generalizing cv x with
  | zero => rfl
  | succ n ih =>
    rw [cbcDecryptBlocks, List.length_append, xorBytes_length, hdec, hcv,
      ih _ _ (by rw [memRead_length]; omega) (by rw [List.length_drop]; omega)]
    omega

/-- The last keystream block is cut to what is left of the message (R118). -/
theorem ctrBlocks_length {enc : List Byte → List Byte} (henc : ∀ x, (enc x).length = 16) (nonce civ : List Byte)
    (n : Nat) (ctr : Word) (x : List Byte) : (ctrBlocks enc nonce civ n ctr x).length = min (16 * n) x.length := by
  induction n generalizing ctr x with
  | zero => simp [ctrBlocks]
  | succ n ih =>
    rw [ctrBlocks, List.length_append, xorBytes_length, memRead_length, memRead_length, henc, ih, List.length_drop]
    omega

/-- `OLEN` of a command that answers `OK` (R45). -/
def okLength : Instr → Nat
  | .kexp _ => 0
  | .benc _ => 16
  | .bdec _ => 16
  | .ecbe data => data.length
  | .ecbd data => data.length
  | .cbce _ data => data.length
  | .cbcd _ data => data.length
  | .ctre _ _ data => data.length
  | .ctrd _ _ data => data.length

/-- The length of a well-formed command's output fits `OLEN`. -/
theorem okLength_lt (i : Instr) (hwf : wellFormed i = true) : okLength i < 2 ^ 32 := by
  have hle : okLength i ≤ max 16 i.operandD.length := by
    cases i <;> simp [okLength, Instr.operandD]
  obtain ⟨-, -, hd⟩ := (wellFormed_iff i).mp hwf
  rw [Config.maxData] at hd
  omega

/-- A result that is one response, with `n` bytes of output on `OK` and none on an error (R45). -/
def RespondsWith (n : Nat) (s : State) (r : Result) : Prop :=
  ∃ t st out, r = .next t ∧ t.output = s.output ++ responseFrame st out ∧ (st ≠ .ok → out = []) ∧
    (st = .ok → out.length = n)

theorem respondsWith_error (n : Nat) (e : ErrorKind) (s : State) :
    RespondsWith n s (.next (answeredState (.error e) [] s)) :=
  ⟨_, _, _, rfl, rfl, fun _ => rfl, nofun⟩

theorem respondsWith_ok {n : Nat} {out : List Byte} (s : State) (h : out.length = n) :
    RespondsWith n s (.next (answeredState .ok out s)) :=
  ⟨_, _, _, rfl, rfl, fun hne => absurd rfl hne, fun _ => h⟩

theorem loadKey_respondsWith (key : List Byte) (s : State) : RespondsWith 0 s (loadKey (receive key [] [] s)) := by
  rw [loadKey_spec]
  split_ifs
  · exact respondsWith_ok (commit (expandKey key) s) rfl
  · exact respondsWith_error _ _ _

theorem blockCommand_respondsWith {f : KeySlot → List Byte → List Byte} (hf : ∀ k x, (f k x).length = 16)
    (data : List Byte) (s : State) : RespondsWith 16 s (blockCommand f (receive [] [] data s)) := by
  rw [blockCommand_spec]
  split_ifs
  · exact respondsWith_error _ _ _
  · exact respondsWith_ok s (hf _ _)
  · exact respondsWith_error _ _ _

theorem ecbCommand_respondsWith {f : KeySlot → List Byte → List Byte} (hf : ∀ k x, (f k x).length = 16)
    (data : List Byte) (s : State) : RespondsWith data.length s (ecbCommand f (receive [] [] data s)) := by
  rw [ecbCommand_spec]
  split_ifs
  · exact respondsWith_error _ _ _
  · exact respondsWith_ok s (by rw [ecbBlocks_length (hf _)]; omega)
  · exact respondsWith_error _ _ _

theorem cbcCommand_respondsWith {f : KeySlot → Nat → List Byte → List Byte → List Byte}
    (hf : ∀ k n cv x, cv.length = 16 → 16 * n ≤ x.length → (f k n cv x).length = 16 * n) (iv data : List Byte)
    (s : State) : RespondsWith data.length s (cbcCommand f (receive iv [] data s)) := by
  rw [cbcCommand_spec]
  split_ifs with hk hiv hd
  · exact respondsWith_error _ _ _
  · exact respondsWith_ok s (by rw [hf _ _ _ _ hiv (by omega)]; omega)
  · exact respondsWith_error _ _ _
  · exact respondsWith_error _ _ _

theorem ctrCommand_respondsWith (nonce iv data : List Byte) (s : State) :
    RespondsWith data.length s (ctrCommand (receive nonce iv data s)) := by
  rw [ctrCommand_spec]
  split_ifs
  · exact respondsWith_error _ _ _
  · exact respondsWith_ok s (by rw [ctrBlocks_length (encrypt_length _), blockCount]; omega)
  · exact respondsWith_error _ _ _

/-- Every command responds with the output length of its row (R45). -/
theorem exec_respondsWith (i : Instr) (s : State) : RespondsWith (okLength i) s (exec i s) := by
  cases i with
  | kexp key => exact loadKey_respondsWith key s
  | benc data => exact blockCommand_respondsWith encrypt_length data s
  | bdec data => exact blockCommand_respondsWith decrypt_length data s
  | ecbe data => exact ecbCommand_respondsWith encrypt_length data s
  | ecbd data => exact ecbCommand_respondsWith decrypt_length data s
  | cbce iv data =>
    exact cbcCommand_respondsWith (fun k n cv x _ _ => cbcEncryptBlocks_length (encrypt_length k) n cv x) iv data s
  | cbcd iv data =>
    exact cbcCommand_respondsWith (fun k n cv x => cbcDecryptBlocks_length (decrypt_length k) n cv x) iv data s
  | ctre nonce iv data => exact ctrCommand_respondsWith nonce iv data s
  | ctrd nonce iv data => exact ctrCommand_respondsWith nonce iv data s

/-- Settles O11: the response of every command has its row's output length or, on an error, none, so `OLEN` fits; an
illegal command's is the error header. -/
theorem responseFrameShape : Obligations.ResponseFrameShape := by
  refine ⟨fun i s hwf => ?_, fun s why n hd => ⟨_, step_illegal hd, rfl⟩⟩
  obtain ⟨t, st, out, hrun, hout, herr, hok⟩ := exec_respondsWith i s
  have hlt : out.length < 2 ^ 32 := by
    by_cases hst : st = .ok
    · rw [hok hst]
      exact okLength_lt i hwf
    · simp [herr hst]
  exact ⟨t, st, out, hrun, hout, hlt, herr, hok⟩

/-! ### The order of the checks (R50) -/

@[simp] theorem responseStatus_answeredState (st : Status) (out : List Byte) (s : State) :
    responseStatus s (answeredState st out s) = some (statusCode st) :=
  responseStatus_of_output rfl

theorem loadKey_status (key : List Byte) (s : State) :
    ∃ t, loadKey (receive key [] [] s) = .next t ∧ responseStatus s t = some
      (if key.length = 16 ∨ key.length = 24 ∨ key.length = 32 then 0x00 else 0x01) := by
  refine ⟨_, loadKey_spec key s, ?_⟩
  simp only [legalKeyLength_iff]
  split_ifs
  · exact responseStatus_of_output (st := .ok) (out := []) rfl
  · exact responseStatus_answeredState _ _ _

theorem blockCommand_status (f : KeySlot → List Byte → List Byte) (data : List Byte) (s : State) :
    ∃ t, blockCommand f (receive [] [] data s) = .next t ∧ responseStatus s t = some
      (if s.slot.kv = false then 0x04 else if data.length ≠ 16 then 0x02 else 0x00) := by
  refine ⟨_, blockCommand_spec f data s, ?_⟩
  rw [ite_not]
  split_ifs <;> exact responseStatus_answeredState _ _ _

theorem ecbCommand_status (f : KeySlot → List Byte → List Byte) (data : List Byte) (s : State) :
    ∃ t, ecbCommand f (receive [] [] data s) = .next t ∧ responseStatus s t = some
      (if s.slot.kv = false then 0x04 else if data.length % 16 ≠ 0 then 0x02 else 0x00) := by
  refine ⟨_, ecbCommand_spec f data s, ?_⟩
  rw [ite_not]
  split_ifs <;> exact responseStatus_answeredState _ _ _

theorem cbcCommand_status (f : KeySlot → Nat → List Byte → List Byte → List Byte) (iv data : List Byte) (s : State) :
    ∃ t, cbcCommand f (receive iv [] data s) = .next t ∧ responseStatus s t = some
      (if s.slot.kv = false then 0x04 else if iv.length ≠ 16 then 0x03 else if data.length % 16 ≠ 0 then 0x02
        else 0x00) := by
  refine ⟨_, cbcCommand_spec f iv data s, ?_⟩
  rw [ite_not, ite_not]
  split_ifs <;> exact responseStatus_answeredState _ _ _

theorem ctrCommand_status (nonce iv data : List Byte) (s : State) :
    ∃ t, ctrCommand (receive nonce iv data s) = .next t ∧ responseStatus s t = some
      (if s.slot.kv = false then 0x04 else if nonce.length ≠ 4 ∨ iv.length ≠ 8 then 0x03 else 0x00) := by
  refine ⟨_, ctrCommand_spec nonce iv data s, ?_⟩
  simp only [ne_eq, ← not_and_or, ite_not]
  split_ifs <;> exact responseStatus_answeredState _ _ _

/-- Settles O13, family by family: each command's body answers its first failing check, in the order of R50. -/
theorem checksInOrder : Obligations.ChecksInOrder := by
  refine ⟨loadKey_status, ?_, ?_, ?_, ?_⟩
  · rintro data s i (rfl | rfl)
    · exact blockCommand_status KeySlot.encrypt data s
    · exact blockCommand_status KeySlot.decrypt data s
  · rintro data s i (rfl | rfl)
    · exact ecbCommand_status KeySlot.encrypt data s
    · exact ecbCommand_status KeySlot.decrypt data s
  · rintro iv data s i (rfl | rfl)
    · exact cbcCommand_status (fun k => cbcEncryptBlocks k.encrypt) iv data s
    · exact cbcCommand_status (fun k => cbcDecryptBlocks k.decrypt) iv data s
  · rintro nonce iv data s i (rfl | rfl)
    · exact ctrCommand_status nonce iv data s
    · exact ctrCommand_status nonce iv data s

end Sys2Proof.Machine

/-! GF(2^8) (spec/40_gf_sbox.md R61): field doubling in eight bits and in nine -/

namespace Sys2Proof.Machine

theorem getLsbD_nineBitDouble (a : Byte) : (a.setWidth 9 <<< 1).getLsbD 8 = a.msb := by
  simp [BitVec.msb_eq_getLsbD_last]

theorem setWidth_nineBitDouble (a : Byte) : (a.setWidth 9 <<< 1).setWidth 8 = a <<< 1 := by
  simp [BitVec.setWidth_shiftLeft_of_le]

/-- Settles O40: bit 8 of the nine-bit double is the top bit of `a`, and keeping the low byte distributes over the XOR
and leaves `0x1B` of `0x11B`. -/
theorem xtimeReducesByPolynomial : Obligations.XtimeReducesByPolynomial := by
  intro a
  rw [getLsbD_nineBitDouble, xtime]
  split
  · rw [BitVec.setWidth_xor, setWidth_nineBitDouble]
    rfl
  · rw [setWidth_nineBitDouble]
    exact BitVec.xor_zero

end Sys2Proof.Machine

/-! The round transformations by lane (spec/41_round_transforms.md R70 to R84): `SubWord` and `RotWord`, `ShiftRows` and
its inverse, blocks to the cipher state and back -/

namespace Sys2Proof.Machine

/-! ### Lanes of a word and of the cipher state -/

/-- Byte position `r` of a word packed from a family of bytes holds byte `r` of the family (R70). -/
theorem byteAt_packWord (b : Nat → Byte) {r : Nat} (hr : r < 4) :
    byteAt (packWord (b 0) (b 1) (b 2) (b 3)) r = b r := by
  interval_cases r <;> simp

/-- Column `c` of a cipher state built from a family of words holds word `c` of the family. -/
theorem col_mk (w : Nat → Word) {c : Nat} (hc : c < 4) : Columns.col ⟨w 0, w 1, w 2, w 3⟩ c = w c := by
  interval_cases c <;> rfl

theorem col_congr (s : Columns) {c d : Nat} (h : c % 4 = d % 4) : s.col c = s.col d := by
  rw [Columns.col, h, Columns.col]

/-- Cipher states that hold the same byte in every row of every column are equal. -/
theorem columns_ext {s t : Columns} (h : ∀ c r, c < 4 → r < 4 → byteAt (s.col c) r = byteAt (t.col c) r) : s = t := by
  have hcol (c : Nat) (hc : c < 4) : s.col c = t.col c :=
    word_ext (h c 0 hc (by decide)) (h c 1 hc (by decide)) (h c 2 hc (by decide)) (h c 3 hc (by decide))
  obtain ⟨s0, s1, s2, s3⟩ := s
  obtain ⟨t0, t1, t2, t3⟩ := t
  exact (Columns.mk.injEq ..).mpr
    ⟨hcol 0 (by decide), hcol 1 (by decide), hcol 2 (by decide), hcol 3 (by decide)⟩

/-! ### Words (R71, R73) -/

theorem byteAt_subWord (w : Word) {r : Nat} (hr : r < 4) : byteAt (subWord w) r = sbox (byteAt w r) :=
  byteAt_packWord (fun i => sbox (byteAt w i)) hr

theorem rotWord_eq_packWord (w : Word) :
    rotWord w = packWord (byteAt w 1) (byteAt w 2) (byteAt w 3) (byteAt w 0) := by
  apply BitVec.eq_of_getLsbD_eq
  intro i hi
  interval_cases i <;> simp [rotWord, byteAt, packWord]

theorem byteAt_rotWord (w : Word) {r : Nat} (hr : r < 4) : byteAt (rotWord w) r = byteAt w ((r + 1) % 4) := by
  rw [rotWord_eq_packWord]
  exact byteAt_packWord (fun i => byteAt w ((i + 1) % 4)) hr

/-- Settles O43, lane by lane: `SubWord` packs the substituted bytes in place, `RotWord` packs them one position on. -/
theorem wordOperationsByLane : Obligations.WordOperationsByLane :=
  fun w _ hr => ⟨byteAt_subWord w hr, byteAt_rotWord w hr⟩

/-! ### Rows (R76, R77) -/

theorem byteAt_shiftedColumn (s : Columns) (c : Nat) {r : Nat} (hr : r < 4) :
    byteAt (shiftedColumn s c) r = byteAt (s.col (c + r)) r :=
  byteAt_packWord (fun i => byteAt (s.col (c + i)) i) hr

theorem byteAt_invShiftedColumn (s : Columns) (c : Nat) {r : Nat} (hr : r < 4) :
    byteAt (invShiftedColumn s c) r = byteAt (s.col (c + (4 - r) % 4)) r := by
  interval_cases r <;> simp [invShiftedColumn]

theorem byteAt_col_shiftRows (s : Columns) {c r : Nat} (hc : c < 4) (hr : r < 4) :
    byteAt ((shiftRows s).col c) r = byteAt (s.col ((c + r) % 4)) r := by
  rw [shiftRows, col_mk (shiftedColumn s) hc, byteAt_shiftedColumn s c hr, col_congr s (Nat.mod_mod (c + r) 4)]

theorem byteAt_col_invShiftRows (s : Columns) {c r : Nat} (hc : c < 4) (hr : r < 4) :
    byteAt ((invShiftRows s).col c) r = byteAt (s.col ((c + 4 - r) % 4)) r := by
  rw [invShiftRows, col_mk (invShiftedColumn s) hc, byteAt_invShiftedColumn s c hr,
    col_congr s (show (c + 4 - r) % 4 % 4 = (c + (4 - r) % 4) % 4 by omega)]

@[simp] theorem invShiftRows_shiftRows (s : Columns) : invShiftRows (shiftRows s) = s :=
  columns_ext fun c r hc hr => by
    have hback : ((c + 4 - r) % 4 + r) % 4 = c := by omega
    rw [byteAt_col_invShiftRows _ hc hr, byteAt_col_shiftRows _ (Nat.mod_lt _ (by decide)) hr, hback]

@[simp] theorem shiftRows_invShiftRows (s : Columns) : shiftRows (invShiftRows s) = s :=
  columns_ext fun c r hc hr => by
    have hback : ((c + r) % 4 + 4 - r) % 4 = c := by omega
    rw [byteAt_col_shiftRows _ hc hr, byteAt_col_invShiftRows _ (Nat.mod_lt _ (by decide)) hr, hback]

/-- Settles O44: each operation moves every byte along its row, `ShiftRows` by `r` columns and `InvShiftRows` by `r` back,
and the two moves cancel modulo 4. -/
theorem shiftRowsRotatesRows : Obligations.ShiftRowsRotatesRows :=
  ⟨fun s _ _ hc hr => ⟨byteAt_col_shiftRows s hc hr, byteAt_col_invShiftRows s hc hr⟩,
    fun s => ⟨invShiftRows_shiftRows s, shiftRows_invShiftRows s⟩⟩

/-! ### Blocks (R83, R84) -/

theorem col_loadState (x : List Byte) {c : Nat} (hc : c < 4) : (loadState x).col c = wordOfBytes x c :=
  col_mk (wordOfBytes x) hc

theorem byteAt_col_loadState (x : List Byte) {c r : Nat} (hc : c < 4) (hr : r < 4) :
    byteAt ((loadState x).col c) r = byteOf x (4 * c + r) := by
  rw [col_loadState x hc]
  exact byteAt_packWord (fun i => byteOf x (4 * c + i)) hr

theorem byteOf_storeState (s : Columns) {c r : Nat} (hc : c < 4) (hr : r < 4) :
    byteOf (storeState s) (4 * c + r) = byteAt (s.col c) r := by
  interval_cases c <;> interval_cases r <;> rfl

theorem byteOf_eq_getElem (x : List Byte) {i : Nat} (hi : i < x.length) : byteOf x i = x[i] :=
  List.getD_eq_getElem x _ hi

@[simp] theorem loadState_storeState (s : Columns) : loadState (storeState s) = s :=
  columns_ext fun c r hc hr => by rw [byteAt_col_loadState _ hc hr, byteOf_storeState s hc hr]

/-- A sixteen-byte block comes back, byte `i` through row `i % 4` of column `i / 4`. -/
theorem storeState_loadState {x : List Byte} (hx : x.length = 16) : storeState (loadState x) = x := by
  refine List.ext_getElem (by rw [storeState_length, hx]) fun i hi hi' => ?_
  rw [storeState_length] at hi
  rw [← byteOf_eq_getElem, ← byteOf_eq_getElem, ← Nat.div_add_mod i 4, byteOf_storeState _ (by omega) (by omega),
    byteAt_col_loadState x (by omega) (by omega)]

/-- Settles O48: loading and storing use the same place of the state for each byte of the block. -/
theorem loadStoreStateInverse : Obligations.LoadStoreStateInverse :=
  ⟨fun x hx => ⟨storeState_loadState hx, fun _ hc => col_loadState x hc⟩,
    fun s => ⟨storeState_length s, loadState_storeState s, fun _ _ hc hr => byteOf_storeState s hc hr⟩⟩

end Sys2Proof.Machine

/-! `KEXP` and its frame (spec/42_key_schedule.md R90 to R95): what a key of legal length loads, and that a failed or
illegal `KEXP` loads nothing -/

namespace Sys2Proof.Machine

/-- A key of legal length is expanded, committed and answered `OK` (R90). -/
theorem exec_kexp_legal {key : List Byte} (s : State) (h : legalKeyLength key.length = true) :
    exec (.kexp key) s = .next (answeredState .ok [] (commit (expandKey key) s)) := by
  rw [exec, execKexp, loadKey_spec, if_pos h]

/-- A key of any other length is answered `InvalidKeySize` (R91, R95). -/
theorem exec_kexp_badLength {key : List Byte} (s : State) (h : ¬ legalKeyLength key.length = true) :
    exec (.kexp key) s = .next (answeredState (.error .invalidKeySize) [] s) := by
  rw [exec, execKexp, loadKey_spec, if_neg h]

/-- Settles O19: the committed slot holds the key (`keyHeld_commit_expandKey`), and the answer changes nothing else that
the host sees. -/
theorem kexpLoadsSchedule : Obligations.KexpLoadsSchedule := by
  intro key s hlen
  have hlegal : legalKeyLength key.length = true := (legalKeyLength_iff _).mpr hlen
  exact ⟨_, exec_kexp_legal s hlegal, keyHeld_commit_expandKey key s hlegal, ⟨⟨rfl, rfl⟩, rfl⟩, rfl⟩

/-- Settles O20: a key of wrong length is answered by the error alone, with the slot as it was; a `KEXP` header with a
length for an unused operand is one of the reserved headers of O5, whatever `ALEN` is. -/
theorem failedKexpKeepsKey : Obligations.FailedKexpKeepsKey := by
  refine ⟨fun key s h16 h24 h32 => ?_, fun h operands more s hop hunused hl hb => ?_⟩
  · have hbad : ¬ legalKeyLength key.length = true :=
      mt (legalKeyLength_iff _).mp (not_or.mpr ⟨h16, not_or.mpr ⟨h24, h32⟩⟩)
    exact ⟨_, exec_kexp_badLength s hbad, rfl, rfl, rfl⟩
  · obtain ⟨hreserved, -⟩ := reservedEncodingsAreIllegal
    obtain ⟨t, hstep, hslot, -, hout⟩ :=
      hreserved h operands more s (.inr (.inr (.inl ⟨hop, hunused⟩))) hl hb
    exact ⟨t, hstep, hslot, hout⟩

end Sys2Proof.Machine

/-! The single-block cipher (spec/43_block_cipher.md R100, R101, R103, R104): the states that `Encrypt` and `Decrypt`
pass through, one a round, and the two commands -/

namespace Sys2Proof.Machine

/-! ### The states of `Encrypt` (R100) -/

/-- The state of `Encrypt` after round `r`, from the block state `st`; round 0 adds group 0 (R100 steps 1 and 2). -/
def encryptStateAfter (ek : Nat → Word) (st : Columns) (r : Nat) : Columns :=
  (List.range' 1 r).foldl (encryptRound ek) (addRoundKey st ek 0)

@[simp] theorem encryptStateAfter_zero (ek : Nat → Word) (st : Columns) :
    encryptStateAfter ek st 0 = addRoundKey st ek 0 := rfl

theorem encryptStateAfter_succ (ek : Nat → Word) (st : Columns) (r : Nat) :
    encryptStateAfter ek st (r + 1) = encryptRound ek (encryptStateAfter ek st r) (r + 1) := by
  rw [encryptStateAfter, List.range'_1_concat, List.foldl_concat, Nat.add_comm 1 r, encryptStateAfter]

/-- The final round has no `MixColumns` (R100 step 3). -/
theorem encryptState_eq_finalRound (nr : Nat) (ek : Nat → Word) (st : Columns) :
    encryptState nr ek st = addRoundKey (shiftRows (subBytes (encryptStateAfter ek st (nr - 1)))) ek nr := rfl

/-- Settles O37: the states are those of `encryptStateAfter`, and one more round takes each to the next. -/
theorem encryptRunsRounds : Obligations.EncryptRunsRounds := by
  intro k p _
  refine ⟨encryptStateAfter k.ekWord (loadState p), encryptStateAfter_zero _ _, fun r hr _ => ?_, ?_⟩
  · obtain ⟨n, rfl⟩ := Nat.exists_eq_add_of_le' hr
    exact encryptStateAfter_succ _ _ n
  · rw [KeySlot.encrypt, encryptBlock, encryptState_eq_finalRound]

/-! ### The states of `Decrypt` (R101) -/

/-- The state of `Decrypt` after round `r`, from the block state `st`; the rounds count down from `nr`, which adds group
`nr` (R101 steps 1 and 2). -/
def decryptStateAfter (nr : Nat) (dk : Nat → Word) (st : Columns) (r : Nat) : Columns :=
  (List.range' r (nr - r)).reverse.foldl (decryptRound dk) (addRoundKey st dk nr)

@[simp] theorem decryptStateAfter_self (nr : Nat) (dk : Nat → Word) (st : Columns) :
    decryptStateAfter nr dk st nr = addRoundKey st dk nr := by
  rw [decryptStateAfter, Nat.sub_self]
  rfl

theorem decryptStateAfter_of_lt {nr r : Nat} (dk : Nat → Word) (st : Columns) (h : r < nr) :
    decryptStateAfter nr dk st r = decryptRound dk (decryptStateAfter nr dk st (r + 1)) r := by
  have hcount : nr - r = nr - (r + 1) + 1 := by omega
  rw [decryptStateAfter, hcount, List.range'_succ, List.reverse_cons, List.foldl_concat, decryptStateAfter]

/-- The final round has no `InvMixColumns` (R101 step 3). -/
theorem decryptState_eq_finalRound (nr : Nat) (dk : Nat → Word) (st : Columns) :
    decryptState nr dk st = addRoundKey (invSubBytes (invShiftRows (decryptStateAfter nr dk st 1))) dk 0 := rfl

/-- Settles O38: the states are those of `decryptStateAfter`, and one more round takes each to the next below. -/
theorem decryptRunsRounds : Obligations.DecryptRunsRounds := by
  intro k c _
  refine ⟨decryptStateAfter k.nr.toNat k.dkWord (loadState c), decryptStateAfter_self _ _ _, fun r _ hr => ?_, ?_⟩
  · exact decryptStateAfter_of_lt _ _ hr
  · rw [KeySlot.decrypt, decryptBlock, decryptState_eq_finalRound]

/-! ### `BENC` and `BDEC` (R103, R104) -/

/-- `answeredState` is the state that `AnsweredOnly` describes. -/
theorem answeredOnly_answeredState (s : State) (st : Status) (out : List Byte) :
    AnsweredOnly s (answeredState st out s) st out :=
  ⟨⟨answeredState_output st out s, answeredState_input st out s⟩, answeredState_slot st out s⟩

theorem blockCommand_answeredOnly (f : KeySlot → List Byte → List Byte) (data : List Byte) (s : State) :
    ∃ t, blockCommand f (receive [] [] data s) = .next t ∧
      (if s.slot.kv = false then AnsweredOnly s t (.error .noKey) []
        else if data.length ≠ 16 then AnsweredOnly s t (.error .invalidBlockSize) []
        else AnsweredOnly s t .ok (f s.slot data)) := by
  refine ⟨_, blockCommand_spec f data s, ?_⟩
  rw [ite_not]
  split_ifs <;> exact answeredOnly_answeredState _ _ _

/-- Settles O25: both commands are `blockCommand`, with the slot's `Encrypt` and with its `Decrypt`. -/
theorem singleBlockCommands : Obligations.SingleBlockCommands := fun data s =>
  ⟨blockCommand_answeredOnly KeySlot.encrypt data s, blockCommand_answeredOnly KeySlot.decrypt data s⟩

end Sys2Proof.Machine

/-! The modes (spec/44_modes.md R110 to R120): which block of the output each message block gives, and the six commands
that answer with it -/

namespace Sys2Proof.Machine

/-! ### Reading a message block by block (R110) -/

/-- A read of no more bytes than the string has. -/
theorem memRead_min_length (x : List Byte) (n : Nat) : memRead x 0 (min n x.length) = memRead x 0 n :=
  List.take_eq_take_min.symm

/-- The read of a first block that is whole, or the last of its string. -/
theorem memRead_append_first {y z : List Byte} {n : Nat} (h : min n (y.length + z.length) = y.length) :
    memRead (y ++ z) 0 n = y := by
  rw [← memRead_min_length, List.length_append, h, memRead_append_left _ _ _ _ (Nat.zero_add _).le,
    memRead_all _ _ le_rfl]

/-- Block `j` of a string whose first block is `y`. -/
theorem memRead_block_append {y : List Byte} (hy : y.length = 16) (z : List Byte) (j : Nat) :
    memRead (y ++ z) (16 * j) 16 = if j = 0 then y else memRead z (16 * (j - 1)) 16 := by
  cases j with
  | zero => exact memRead_append_first (by omega)
  | succ j => rw [if_neg j.succ_ne_zero, memRead_append_right _ _ _ _ (by omega), hy, Nat.mul_sub]

/-- What is left of a message after its first block has every later block, counted one lower. -/
theorem memRead_block_drop (x : List Byte) (j : Nat) :
    memRead (x.drop 16) (16 * j) 16 = memRead x (16 * (j + 1)) 16 := by
  rw [memRead_drop, Nat.mul_succ, Nat.add_comm]

/-! ### ECB (R112, R113) -/

theorem ecbBlocks_block {f : List Byte → List Byte} (hf : ∀ x, (f x).length = 16) {n j : Nat} (hj : j < n)
    (x : List Byte) : memRead (ecbBlocks f n x) (16 * j) 16 = f (memRead x (16 * j) 16) := by
  induction n generalizing j x with
  | zero => exact absurd hj j.not_lt_zero
  | succ n ih =>
    rw [ecbBlocks, memRead_block_append (hf _)]
    cases j with
    | zero => rfl
    | succ j => exact (ih (Nat.lt_of_succ_lt_succ hj) _).trans (congrArg f (memRead_block_drop x j))

theorem ecbCommand_answeredOnly {f : KeySlot → List Byte → List Byte} (hf : ∀ k x, (f k x).length = 16)
    (data : List Byte) (s : State) :
    ∃ t, ecbCommand f (receive [] [] data s) = .next t ∧
      (if s.slot.kv = false then AnsweredOnly s t (.error .noKey) []
        else if data.length % 16 ≠ 0 then AnsweredOnly s t (.error .invalidBlockSize) []
        else ∃ out, AnsweredOnly s t .ok out ∧ out.length = data.length ∧
          ∀ j, 16 * j < data.length → memRead out (16 * j) 16 = f s.slot (memRead data (16 * j) 16)) := by
  refine ⟨_, ecbCommand_spec f data s, ?_⟩
  rw [ite_not]
  split_ifs with hk hd
  · exact answeredOnly_answeredState _ _ _
  · refine ⟨_, answeredOnly_answeredState _ _ _, ?_, fun j hj => ecbBlocks_block (hf _) (by omega) data⟩
    rw [ecbBlocks_length (hf _)]
    omega
  · exact answeredOnly_answeredState _ _ _

/-- Settles O26: both commands are `ecbCommand`, with the slot's `Encrypt` and with its `Decrypt`. -/
theorem ecbTransformsEachBlock : Obligations.EcbTransformsEachBlock := fun data s =>
  ⟨ecbCommand_answeredOnly encrypt_length data s, ecbCommand_answeredOnly decrypt_length data s⟩

/-! ### CBC (R114, R116) -/

/-- A block of the output is chained to the one before it, the first to the chaining vector the message starts with. -/
theorem cbcEncryptBlocks_block {enc : List Byte → List Byte} (henc : ∀ x, (enc x).length = 16) {n j : Nat} (hj : j < n)
    (cv x : List Byte) :
    memRead (cbcEncryptBlocks enc n cv x) (16 * j) 16 =
      enc (xorBytes (memRead x (16 * j) 16)
        (if j = 0 then cv else memRead (cbcEncryptBlocks enc n cv x) (16 * (j - 1)) 16)) := by
  induction n generalizing j cv x with
  | zero => exact absurd hj j.not_lt_zero
  | succ n ih =>
    rw [cbcEncryptBlocks, memRead_block_append (henc _), memRead_block_append (henc _)]
    cases j with
    | zero => rfl
    | succ j => exact (ih (Nat.lt_of_succ_lt_succ hj) _ _).trans (by rw [memRead_block_drop]; rfl)

/-- A block of the output is chained to the message block before its own, the first to the chaining vector. -/
theorem cbcDecryptBlocks_block {dec : List Byte → List Byte} (hdec : ∀ x, (dec x).length = 16) {n j : Nat} (hj : j < n)
    {cv x : List Byte} (hcv : cv.length = 16) (hx : 16 * n ≤ x.length) :
    memRead (cbcDecryptBlocks dec n cv x) (16 * j) 16 =
      xorBytes (dec (memRead x (16 * j) 16)) (if j = 0 then cv else memRead x (16 * (j - 1)) 16) := by
  induction n generalizing j cv x with
  | zero => exact absurd hj j.not_lt_zero
  | succ n ih =>
    rw [cbcDecryptBlocks, memRead_block_append (by rw [xorBytes_length, hdec, hcv, Nat.min_self])]
    cases j with
    | zero => rfl
    | succ j =>
      have hrest := ih (j := j) (Nat.lt_of_succ_lt_succ hj) (cv := memRead x 0 16) (x := x.drop 16)
        (by rw [memRead_length]; omega) (by rw [List.length_drop]; omega)
      rw [memRead_block_drop] at hrest
      refine hrest.trans ?_
      cases j with
      | zero => rfl
      | succ j => exact congrArg _ (memRead_block_drop x j)

/-- A CBC command answers its first failing check, or else the output of `f`, which has whatever property `P` it is shown
to have for an IV and a message of legal lengths. -/
theorem cbcCommand_answeredOnly {f : KeySlot → Nat → List Byte → List Byte → List Byte} {iv data : List Byte} {s : State}
    {P : List Byte → Prop} (hP : iv.length = 16 → data.length % 16 = 0 → P (f s.slot (data.length / 16) iv data)) :
    ∃ t, cbcCommand f (receive iv [] data s) = .next t ∧
      (if s.slot.kv = false then AnsweredOnly s t (.error .noKey) []
        else if iv.length ≠ 16 then AnsweredOnly s t (.error .invalidIvSize) []
        else if data.length % 16 ≠ 0 then AnsweredOnly s t (.error .invalidBlockSize) []
        else ∃ out, AnsweredOnly s t .ok out ∧ P out) := by
  refine ⟨_, cbcCommand_spec f iv data s, ?_⟩
  rw [ite_not, ite_not]
  split_ifs with hk hiv hd
  · exact answeredOnly_answeredState _ _ _
  · exact ⟨_, answeredOnly_answeredState _ _ _, hP hiv hd⟩
  · exact answeredOnly_answeredState _ _ _
  · exact answeredOnly_answeredState _ _ _

/-- Settles O27: the output is `cbcEncryptBlocks` from the IV, chained to the ciphertext emitted. -/
theorem cbcEncryptChainsCiphertext : Obligations.CbcEncryptChainsCiphertext := by
  intro iv data s
  refine cbcCommand_answeredOnly (f := fun k => cbcEncryptBlocks k.encrypt) fun _ hd => ⟨?_, fun j hj => ?_⟩
  · rw [cbcEncryptBlocks_length (encrypt_length _)]
    omega
  · exact cbcEncryptBlocks_block (encrypt_length _) (by omega) iv data

/-- Settles O28: the output is `cbcDecryptBlocks` from the IV, chained to the ciphertext read. -/
theorem cbcDecryptChainsCiphertext : Obligations.CbcDecryptChainsCiphertext := by
  intro iv data s
  refine cbcCommand_answeredOnly (f := fun k => cbcDecryptBlocks k.decrypt) fun hiv hd => ⟨?_, fun j hj => ?_⟩
  · rw [cbcDecryptBlocks_length (decrypt_length _) _ _ _ hiv (by omega)]
    omega
  · exact cbcDecryptBlocks_block (decrypt_length _) (by omega) hiv (by omega)

/-! ### CTR (R117 to R120) -/

/-- The block counter after `j + 1` blocks, modulo 2^32 (R120). -/
theorem counter_succ (ctr : Word) (j : Nat) : ctr + 1 + BitVec.ofNat 32 j = ctr + BitVec.ofNat 32 (j + 1) := by
  rw [BitVec.add_assoc, Nat.add_comm j, BitVec.ofNat_add]
  rfl

/-- Block `j` of the output, which only the last block of the message can make shorter than 16 bytes (R118). -/
theorem ctrBlocks_block {enc : List Byte → List Byte} (henc : ∀ x, (enc x).length = 16) (nonce civ : List Byte)
    {n j : Nat} (hj : j < n) (ctr : Word) {x : List Byte} (hx : 16 * j < x.length) :
    memRead (ctrBlocks enc nonce civ n ctr x) (16 * j) 16 =
      xorBytes (memRead x (16 * j) 16)
        ((enc (counterBlock nonce civ (ctr + BitVec.ofNat 32 j))).take (min 16 (x.length - 16 * j))) := by
  induction n generalizing j ctr x with
  | zero => exact absurd hj j.not_lt_zero
  | succ n ih =>
    have hfirst : (xorBytes (memRead x 0 (min 16 x.length))
        (memRead (enc (counterBlock nonce civ ctr)) 0 (min 16 x.length))).length = min 16 x.length := by
      rw [xorBytes_length, memRead_length, memRead_length, henc]
      omega
    rw [ctrBlocks]
    cases j with
    | zero =>
      rw [Nat.mul_zero, memRead_append_first (by rw [hfirst, ctrBlocks_length henc, List.length_drop]; omega),
        memRead_min_length, BitVec.add_zero]
      rfl
    | succ j =>
      have hwhole : min 16 x.length = 16 := by omega
      have hleft : x.length - 16 - 16 * j = x.length - 16 * (j + 1) := by omega
      rw [memRead_block_append (hfirst.trans hwhole), if_neg j.succ_ne_zero, Nat.add_sub_cancel,
        ih (Nat.lt_of_succ_lt_succ hj) _ (by rw [List.length_drop]; omega), memRead_block_drop, List.length_drop,
        counter_succ, hleft]

theorem ctrCommand_answeredOnly (nonce iv data : List Byte) (s : State) :
    ∃ t, ctrCommand (receive nonce iv data s) = .next t ∧
      (if s.slot.kv = false then AnsweredOnly s t (.error .noKey) []
        else if nonce.length ≠ 4 ∨ iv.length ≠ 8 then AnsweredOnly s t (.error .invalidIvSize) []
        else ∃ out, AnsweredOnly s t .ok out ∧ out.length = data.length ∧
          ∀ j, 16 * j < data.length → memRead out (16 * j) 16 =
            xorBytes (memRead data (16 * j) 16)
              ((s.slot.encrypt (counterBlock nonce iv (BitVec.ofNat 32 (j + 1)))).take
                (min 16 (data.length - 16 * j)))) := by
  refine ⟨_, ctrCommand_spec nonce iv data s, ?_⟩
  simp only [ne_eq, ← not_and_or, ite_not]
  split_ifs with hk hlen
  · exact answeredOnly_answeredState _ _ _
  · refine ⟨_, answeredOnly_answeredState _ _ _, ?_, fun j hj => ?_⟩
    · rw [ctrBlocks_length (encrypt_length _), blockCount]
      omega
    · rw [Nat.add_comm j, BitVec.ofNat_add]
      exact ctrBlocks_block (encrypt_length _) nonce iv (by rw [blockCount]; omega) 1 hj
  · exact answeredOnly_answeredState _ _ _

/-- Settles O29: both commands are `ctrCommand`, so one state is what both leave. -/
theorem ctrXorsKeystream : Obligations.CtrXorsKeystream := fun nonce iv data s =>
  have ⟨t, hrun, hanswer⟩ := ctrCommand_answeredOnly nonce iv data s
  ⟨t, hrun, hrun, hanswer⟩

end Sys2Proof.Machine

/-! Exceptions (spec/60_exceptions.md R130 to R137): exactly when each error is answered, and that an error leaves the
persistent state as it was -/

namespace Sys2Proof.Machine

/-! ### The status a command answers with (R130 to R137) -/

/-- The status a cipher command answers with: `NoKey`, then `InvalidIvSize`, then `InvalidBlockSize`, then `OK` (R50,
R137). -/
def cipherStatus (kv : Bool) (badIv badData : Prop) [Decidable badIv] [Decidable badData] : Status :=
  if kv = false then .error .noKey
  else if badIv then .error .invalidIvSize
  else if badData then .error .invalidBlockSize
  else .ok

section
variable {kv : Bool} {badIv badData : Prop} [Decidable badIv] [Decidable badData]

theorem statusCode_cipherStatus : statusCode (cipherStatus kv badIv badData) =
    if kv = false then 0x04 else if badIv then 0x03 else if badData then 0x02 else 0x00 := by
  unfold cipherStatus
  split_ifs <;> rfl

@[simp] theorem cipherStatus_ne_invalidKeySize : cipherStatus kv badIv badData ≠ .error .invalidKeySize := by
  unfold cipherStatus
  split_ifs <;> decide

@[simp] theorem cipherStatus_ne_illegalCommand : cipherStatus kv badIv badData ≠ .error .illegalCommand := by
  unfold cipherStatus
  split_ifs <;> decide

@[simp] theorem cipherStatus_eq_invalidBlockSize_iff :
    cipherStatus kv badIv badData = .error .invalidBlockSize ↔ kv = true ∧ ¬ badIv ∧ badData := by
  unfold cipherStatus
  split_ifs <;> simp_all

@[simp] theorem cipherStatus_eq_invalidIvSize_iff :
    cipherStatus kv badIv badData = .error .invalidIvSize ↔ kv = true ∧ badIv := by
  unfold cipherStatus
  split_ifs <;> simp_all

end

/-- The status of a command's answer, given `KV` (R50). -/
def answerStatus (kv : Bool) : Instr → Status
  | .kexp key => if key.length = 16 ∨ key.length = 24 ∨ key.length = 32 then .ok else .error .invalidKeySize
  | .benc data | .bdec data => cipherStatus kv False (data.length ≠ 16)
  | .ecbe data | .ecbd data => cipherStatus kv False (data.length % 16 ≠ 0)
  | .cbce iv data | .cbcd iv data => cipherStatus kv (iv.length ≠ 16) (data.length % 16 ≠ 0)
  | .ctre nonce iv _ | .ctrd nonce iv _ => cipherStatus kv (nonce.length ≠ 4 ∨ iv.length ≠ 8) False

/-- Every command completes and answers with its `answerStatus`. -/
theorem exec_answerStatus (i : Instr) (s : State) :
    ∃ t, exec i s = .next t ∧ responseStatus s t = some (statusCode (answerStatus s.slot.kv i)) := by
  obtain ⟨hkexp, hblock, hecb, hcbc, hctr⟩ := checksInOrder
  cases i with
  | kexp key => rw [answerStatus, apply_ite statusCode]; exact hkexp key s
  | benc data => rw [answerStatus, statusCode_cipherStatus]; exact hblock data s _ (.inl rfl)
  | bdec data => rw [answerStatus, statusCode_cipherStatus]; exact hblock data s _ (.inr rfl)
  | ecbe data => rw [answerStatus, statusCode_cipherStatus]; exact hecb data s _ (.inl rfl)
  | ecbd data => rw [answerStatus, statusCode_cipherStatus]; exact hecb data s _ (.inr rfl)
  | cbce iv data => rw [answerStatus, statusCode_cipherStatus]; exact hcbc iv data s _ (.inl rfl)
  | cbcd iv data => rw [answerStatus, statusCode_cipherStatus]; exact hcbc iv data s _ (.inr rfl)
  | ctre nonce iv data => rw [answerStatus, statusCode_cipherStatus]; exact hctr nonce iv data s _ (.inl rfl)
  | ctrd nonce iv data => rw [answerStatus, statusCode_cipherStatus]; exact hctr nonce iv data s _ (.inr rfl)

/-- A status is answered exactly under the condition that makes it the `answerStatus`. -/
theorem exec_answers_iff {i : Instr} {s : State} {st : Status} {P : Prop} (h : answerStatus s.slot.kv i = st ↔ P) :
    ∃ t, exec i s = .next t ∧ (responseStatus s t = some (statusCode st) ↔ P) := by
  obtain ⟨t, hrun, hstatus⟩ := exec_answerStatus i s
  exact ⟨t, hrun, by rw [hstatus, Option.some.injEq, ← h]; exact ⟨statusCode_injective, congrArg statusCode⟩⟩

theorem answerStatus_eq_invalidKeySize_iff (kv : Bool) (i : Instr) :
    answerStatus kv i = .error .invalidKeySize ↔
      ∃ key, i = .kexp key ∧ key.length ≠ 16 ∧ key.length ≠ 24 ∧ key.length ≠ 32 := by
  cases i <;> simp [answerStatus]

theorem answerStatus_eq_invalidBlockSize_iff (kv : Bool) (i : Instr) :
    answerStatus kv i = .error .invalidBlockSize ↔
      (∃ data, (i = .benc data ∨ i = .bdec data) ∧ kv = true ∧ data.length ≠ 16) ∨
      (∃ data, (i = .ecbe data ∨ i = .ecbd data) ∧ kv = true ∧ data.length % 16 ≠ 0) ∨
      (∃ iv data, (i = .cbce iv data ∨ i = .cbcd iv data) ∧ kv = true ∧ iv.length = 16 ∧ data.length % 16 ≠ 0) := by
  cases i <;> simp [answerStatus, ite_eq_iff]

theorem answerStatus_eq_invalidIvSize_iff (kv : Bool) (i : Instr) :
    answerStatus kv i = .error .invalidIvSize ↔
      (∃ iv data, (i = .cbce iv data ∨ i = .cbcd iv data) ∧ kv = true ∧ iv.length ≠ 16) ∨
      (∃ nonce iv data, (i = .ctre nonce iv data ∨ i = .ctrd nonce iv data) ∧ kv = true ∧
        (nonce.length ≠ 4 ∨ iv.length ≠ 8)) := by
  cases i <;> simp [answerStatus, ite_eq_iff]

/-- `IllegalCommand` answers headers, never commands (R136). -/
theorem answerStatus_ne_illegalCommand (kv : Bool) (i : Instr) : answerStatus kv i ≠ .error .illegalCommand := by
  cases i <;> simp [answerStatus, ite_eq_iff]

/-- Settles O14, by the check of `KEXP`. -/
theorem invalidKeySizeExactly : Obligations.InvalidKeySizeExactly := fun i s =>
  exec_answers_iff (answerStatus_eq_invalidKeySize_iff s.slot.kv i)

/-- Settles O15, by the checks of the single-block, ECB and CBC commands. -/
theorem invalidBlockSizeExactly : Obligations.InvalidBlockSizeExactly := fun i s =>
  exec_answers_iff (answerStatus_eq_invalidBlockSize_iff s.slot.kv i)

/-- Settles O16, by the checks of the CBC and CTR commands. -/
theorem invalidIvSizeExactly : Obligations.InvalidIvSizeExactly := fun i s =>
  exec_answers_iff (answerStatus_eq_invalidIvSize_iff s.slot.kv i)

/-! ### `IllegalCommand` (R136) -/

/-- A whole frame under a header that decodes to a row is a command of that length. -/
theorem decode_commandFrame {h : Header} {operands : List Byte} {o : Op} (more : List Byte)
    (hd : decodeHeader h = .ok o) (hl : operands.length = operandBytes h) :
    ∃ i, decode (headerToBytes h ++ operands ++ more) = .command i (frameLength h) :=
  (decode_wholeFrame h operands more hl).resolve_right fun ⟨_, herr, _⟩ => nomatch hd.symm.trans herr

/-- Settles O6: the decoder finds a command exactly when the header matches a row, and no command answers
`IllegalCommand`. -/
theorem illegalCommandExactlyWhenNoRow : Obligations.IllegalCommandExactlyWhenNoRow := by
  intro h operands more s hl hb
  have hlen : frameLength (headerFields h) = 8 + operands.length := by rw [hl]; rfl
  cases hd : decodeHeader (headerFields h) with
  | error why =>
    obtain ⟨t, hstep, -, hin, hout⟩ := step_illegalFrame hd hl hb
    have hstatus : responseStatus s t = some 0x05 :=
      responseStatus_of_output (st := .error .illegalCommand) (out := []) hout
    have hno : ∀ o, h &&& opMask o ≠ opMatch o := fun o ho =>
      nomatch ((decodeHeader_ok_iff_mask h o).mpr ho).symm.trans hd
    exact ⟨t, hstep, by rw [hin, hlen], fun _ => hno, fun _ => hstatus⟩
  | ok o =>
    obtain ⟨i, hcmd⟩ := decode_commandFrame more hd hl
    obtain ⟨t, hrun, hstatus⟩ := exec_answerStatus i (consume (frameLength (headerFields h)) s)
    obtain ⟨-, -, -, -, hin, -⟩ := onlySuccessfulKexpWritesKeySlot i _ t hrun
    refine ⟨t, (step_command (by rw [hb, hcmd])).trans hrun, by rw [hin, ← hlen]; rfl, fun hill => ?_, fun hno => ?_⟩
    · have hcode : statusCode (answerStatus s.slot.kv i) = statusCode (.error .illegalCommand) :=
        Option.some.inj (hstatus.symm.trans hill)
      exact absurd (statusCode_injective hcode) (answerStatus_ne_illegalCommand _ i)
    · exact absurd ((decodeHeader_ok_iff_mask h o).mp hd) (hno o)

/-! ### Errors have no effect (R132) -/

/-- A step that emits nothing answers with no status. -/
theorem responseStatus_of_output_eq {s t : State} (h : t.output = s.output) : responseStatus s t = none := by
  simp [responseStatus, h]

/-- A command that answers an error emits its header alone and leaves the key slot (R132). -/
theorem exec_error {i : Instr} {s t : State} {e : ErrorKind} (hrun : exec i s = .next t)
    (herr : responseStatus s t = some (statusCode (.error e))) :
    t.output = s.output ++ errorFrame (statusCode (.error e)) ∧ t.slot = s.slot := by
  obtain ⟨t', st, out, hrun', hout, hempty, -⟩ := exec_respondsWith i s
  obtain rfl : t' = t := Host.Outcome.next.inj (hrun'.symm.trans hrun)
  obtain rfl : st = .error e :=
    statusCode_injective (Option.some.inj ((responseStatus_of_output hout).symm.trans herr))
  rw [hempty nofun] at hout
  obtain ⟨-, -, -, hslot, -⟩ := onlySuccessfulKexpWritesKeySlot i s t' hrun
  exact ⟨hout, hslot (by rw [herr]; exact fun h => statusCode_error_ne_zero e (Option.some.inj h))⟩

/-- Settles O18, by what the decoder finds: a command (`exec_error`), an illegal command, whose only status is
`IllegalCommand`, or no whole frame, and then no status at all. -/
theorem errorsHaveNoEffect : Obligations.ErrorsHaveNoEffect := by
  intro s t e hstep herr
  cases hd : decode (bytesInTime s.input) with
  | command i n => exact exec_error (s := consume n s) ((step_command hd).symm.trans hstep) herr
  | illegal why n =>
    obtain rfl : _ = t := Host.Outcome.next.inj ((step_illegal hd).symm.trans hstep)
    have hstatus : responseStatus s _ = _ := responseStatus_answeredState (.error .illegalCommand) [] (consume n s)
    obtain rfl : .illegalCommand = e :=
      Status.error.inj (statusCode_injective (Option.some.inj (hstatus.symm.trans herr)))
    exact ⟨rfl, rfl⟩
  | incomplete =>
    obtain ⟨t', hstep', hout⟩ := step_incomplete hd
    obtain rfl : t' = t := Host.Outcome.next.inj (hstep'.symm.trans hstep)
    exact nomatch (responseStatus_of_output_eq hout).symm.trans herr

end Sys2Proof.Machine

/-! Pseudo-commands (spec/30_encoding.md R52): a `KEXP`, and its mode command only after `OK` -/

namespace Sys2Proof.Machine

theorem answeredOk_iff (s t : State) : answeredOk s t = true ↔ responseStatus s t = some 0x00 :=
  beq_iff_eq

/-- No mode command is a `KEXP`, so none writes the key slot (R17). -/
theorem pseudoMode_ne_kexp (p : Pseudo) (key : List Byte) : pseudoMode p ≠ .kexp key := by
  cases p <;> exact nofun

/-- Once the `KEXP` has completed, the status it answered decides whether the mode command is sent (R52). -/
theorem runPseudo_eq {p : Pseudo} {s t : State} (h : exec (.kexp (pseudoKey p)) s = .next t) :
    runPseudo p s = if responseStatus s t = some 0x00 then exec (pseudoMode p) t else .next t := by
  simp only [runPseudo, h, answeredOk_iff]

/-- A mode command completes and leaves the key slot as it was (R17). -/
theorem exec_pseudoMode_slot (p : Pseudo) (s : State) : ∃ t, exec (pseudoMode p) s = .next t ∧ t.slot = s.slot := by
  obtain ⟨t, -, -, hrun, -⟩ := exec_answered (pseudoMode p) s
  obtain ⟨-, -, hslot, -⟩ := onlySuccessfulKexpWritesKeySlot _ s t hrun
  exact ⟨t, hrun, hslot (pseudoMode_ne_kexp p)⟩

/-- A `KEXP` that does not answer `OK` answers `InvalidKeySize` (R50, R133). -/
theorem kexp_status_of_not_ok {key : List Byte} {s t : State} (h : exec (.kexp key) s = .next t)
    (hbad : responseStatus s t ≠ some 0x00) : responseStatus s t = some 0x01 := by
  obtain ⟨hkexp, -⟩ := checksInOrder
  obtain ⟨t', hrun, hstatus⟩ := hkexp key s
  obtain rfl : t' = t := Host.Outcome.next.inj (hrun.symm.trans h)
  split_ifs at hstatus
  · exact absurd hstatus hbad
  · exact hstatus

/-- Settles O53: after `OK` the `KEXP` has loaded the key and the mode command leaves the slot; after an error the result
is the `KEXP`'s, whose slot is as it was (`onlySuccessfulKexpWritesKeySlot`). -/
theorem pseudoCommandsLoadThenRun : Obligations.PseudoCommandsLoadThenRun := by
  refine ⟨fun _ _ _ _ => ⟨rfl, rfl, rfl, rfl, rfl, rfl⟩, fun p s => ?_⟩
  obtain ⟨t, -, -, hrun, -⟩ := exec_answered (.kexp (pseudoKey p)) s
  obtain ⟨-, hheld, -, hkept, -⟩ := onlySuccessfulKexpWritesKeySlot _ s t hrun
  have hpseudo := runPseudo_eq hrun
  refine ⟨t, hrun, fun hok => ?_, fun hbad => ?_⟩
  · rw [if_pos hok] at hpseudo
    obtain ⟨u, hmode, hslot⟩ := exec_pseudoMode_slot p t
    exact ⟨hpseudo, u, hpseudo.trans hmode, by rw [hslot]; exact hheld _ rfl hok⟩
  · rw [if_neg hbad] at hpseudo
    exact ⟨hpseudo, hkept hbad, kexp_status_of_not_ok hrun hbad⟩

end Sys2Proof.Machine

/-! The decoder and the encoder (spec/30_encoding.md R41 to R46): each undoes the other -/

namespace Sys2Proof.Machine

/-! ### A frame split into its header and its operands -/

@[simp] theorem op_build (o : Op) (a b d : List Byte) : (build o a b d).op = o := by cases o <;> rfl

/-- The operands of a row's command are those given, where those the row does not use are empty (R43). -/
theorem operands_build {o : Op} {a b d : List Byte} (ha : usesA o = false → a = []) (hb : usesB o = false → b = [])
    (hd : usesD o = false → d = []) :
    (build o a b d).operandA = a ∧ (build o a b d).operandB = b ∧ (build o a b d).operandD = d := by
  cases o <;> simp_all [usesA, usesB, usesD, build, Instr.operandA, Instr.operandB, Instr.operandD]

/-- The header fields of a legal frame are those the encoder writes for its command (R41, R46). -/
theorem commandHeader_build {h : Header} {o : Op} {a b d : List Byte} (hok : decodeHeader h = .ok o)
    (ha : a.length = h.alen.toNat) (hb : b.length = h.blen.toNat) (hd : d.length = h.dlen.toNat) :
    commandHeader (build o a b d) = h ∧ (build o a b d).operandA = a ∧ (build o a b d).operandB = b ∧
      (build o a b d).operandD = d := by
  obtain ⟨hop, hrsv, hua, hub, hud⟩ := (decodeHeader_ok_iff h o).mp hok
  obtain ⟨hA, hB, hD⟩ := operands_build (o := o) (a := a) (b := b) (d := d)
    (fun hu => List.eq_nil_of_length_eq_zero (by simp [ha, hua hu]))
    (fun hu => List.eq_nil_of_length_eq_zero (by simp [hb, hub hu]))
    (fun hu => List.eq_nil_of_length_eq_zero (by simp [hd, hud hu]))
  refine ⟨?_, hA, hB, hD⟩
  rw [commandHeader, hA, hB, hD, ha, hb, hd, op_build]
  obtain ⟨op, rsv, alen, blen, dlen⟩ := h
  simp_all

/-- Bytes that hold more than a cut header are a header's eight bytes and what follows them (R41). -/
theorem exists_header_of_decode {bytes : List Byte} (h : decode bytes ≠ .incomplete) :
    ∃ hd body, bytes = headerToBytes hd ++ body := by
  unfold decode at h
  split at h
  · next op rsv alen blen d0 d1 d2 d3 body =>
    exact ⟨⟨op, rsv, alen, blen, packWord d0 d1 d2 d3⟩, body, by simp [headerToBytes, be32]⟩
  · exact absurd rfl h

/-- A frame that decodes to a command has a legal header, is whole, and its operands stand one after the other behind the
header, as long as the header says (R42, R46). -/
theorem decodeFrame_command {h : Header} {body : List Byte} {i : Instr} {n : Nat}
    (hdec : decodeFrame h body = .command i n) :
    ∃ o a b d, decodeHeader h = .ok o ∧ i = build o a b d ∧ n = frameLength h ∧ a.length = h.alen.toNat ∧
      b.length = h.blen.toNat ∧ d.length = h.dlen.toNat ∧ body.take (operandBytes h) = a ++ (b ++ d) := by
  unfold decodeFrame at hdec
  split_ifs at hdec with hcut
  cases hok : decodeHeader h with
  | error why => simp [hok] at hdec
  | ok o =>
    simp only [hok, Decoded.command.injEq] at hdec
    obtain ⟨rfl, rfl⟩ := hdec
    rw [operandBytes] at hcut
    refine ⟨o, _, _, _, rfl, rfl, rfl, ?_, ?_, ?_, ?_⟩
    · rw [List.length_take]; omega
    · rw [List.length_take, List.length_drop]; omega
    · rw [List.length_take, List.length_drop]; omega
    · rw [operandBytes, List.take_add, List.take_add, List.append_assoc]

/-! ### The round trips -/

/-- Settles O1: the frame's header decodes to the command's row, and its length fields cut the operands out again
(`decode_encode_append`). -/
theorem decodeInvertsEncode : Obligations.DecodeInvertsEncode := fun _ rest hwf => decode_encode_append rest hwf

/-- Settles O2: a frame that decodes to a command is a header, which is the one the encoder writes, and then the command's
three operands. -/
theorem encodeInvertsDecode : Obligations.EncodeInvertsDecode := by
  intro bytes i n hdec
  obtain ⟨h, body, rfl⟩ := exists_header_of_decode (by rw [hdec]; exact nofun)
  rw [decode_headerToBytes] at hdec
  obtain ⟨o, a, b, d, hok, rfl, rfl, ha, hb, hd, hbody⟩ := decodeFrame_command hdec
  obtain ⟨hheader, hA, hB, hD⟩ := commandHeader_build hok ha hb hd
  have hencode : encode (build o a b d) = headerToBytes h ++ (a ++ (b ++ d)) := by
    rw [encode_eq, hheader, hA, hB, hD]
  refine ⟨?_, ?_, ?_⟩
  · rw [wellFormed_iff, hA, hB, hD, ha, hb, hd, Config.maxShort, Config.maxData]
    exact ⟨by omega, by omega, by omega⟩
  · simp [hencode, frameLength, operandBytes, Config.headerBytes, ha, hb, hd, Nat.add_assoc]
  · rw [hencode, frameLength, Config.headerBytes, ← headerToBytes_length h, List.take_length_add_append, hbody]

/-- Settles O4, by running the decoder on the frames. -/
theorem sampleFramesDecode : Obligations.SampleFramesDecode := by
  unfold Obligations.SampleFramesDecode
  decide

end Sys2Proof.Machine

/-! The invariant (spec/10_state.md R10, R16) and what one step does to it -/

namespace Sys2Proof.Machine

/-! ### What a command leaves -/

/-- A command writes the slot only by loading a key, and leaves free values in the transient state (R17, U3). -/
theorem exec_slot_work {i : Instr} {s t : State} (hrun : exec i s = .next t) :
    (t.slot = s.slot ∨ ∃ key, i = .kexp key ∧ responseStatus s t = some 0x00 ∧ KeyHeld key t.slot) ∧
      t.work = freeTransient s.draws := by
  obtain ⟨hslot, -⟩ := onlySuccessfulKexpWritesKeySlot i s t hrun
  refine ⟨hslot, ?_⟩
  rcases exec_cases i s with ⟨key, -, -, hrun'⟩ | ⟨st, out, hrun', -⟩
  all_goals
    obtain rfl : _ = t := Host.Outcome.next.inj (hrun'.symm.trans hrun)
    rfl

/-! ### The invariant -/

/-- Free values keep the buffers' largest lengths (R10). -/
theorem bufferInv_of_freeTransient {s : State} {draw : Nat} (h : s.work = freeTransient draw) : BufferInv s := by
  rw [BufferInv, h]
  exact ⟨List.length_take_le _ _, List.length_take_le _ _, List.length_take_le _ _, List.length_take_le _ _⟩

theorem keyInv_of_slot_eq {s t : State} (h : t.slot = s.slot) (hkey : KeyInv s) : KeyInv t := by
  rwa [KeyInv, h]

theorem keyInv_of_kv_eq_false {s : State} (h : s.slot.kv = false) : KeyInv s :=
  fun hkv => absurd (h.symm.trans hkv) Bool.false_ne_true

theorem exec_keepsInv {i : Instr} {s t : State} (hkey : KeyInv s) (hrun : exec i s = .next t) : Inv t := by
  obtain ⟨hslot | ⟨key, -, -, hheld⟩, hwork⟩ := exec_slot_work hrun
  · exact ⟨keyInv_of_slot_eq hslot hkey, bufferInv_of_freeTransient hwork⟩
  · exact ⟨fun _ => ⟨key, hheld⟩, bufferInv_of_freeTransient hwork⟩

/-- Settles O22, by the four things a step can do: a command writes the slot only by loading a key; an illegal command
leaves it; waiting leaves everything; a reset event drops the key. -/
theorem stepKeepsKeyInvariant : Obligations.StepKeepsKeyInvariant := by
  intro s t ⟨hkey, hbuf⟩ hstep
  rcases step_cases s with ⟨i, n, -, hrun⟩ | ⟨why, n, -, hrun⟩ | ⟨-, -, hrun⟩ | ⟨rest, -, -, hrun⟩
  · exact exec_keepsInv (s := consume n s) hkey (hrun.symm.trans hstep)
  · obtain rfl : _ = t := Host.Outcome.next.inj (hrun.symm.trans hstep)
    exact ⟨hkey, bufferInv_of_freeTransient rfl⟩
  · obtain rfl : s = t := Host.Outcome.next.inj (hrun.symm.trans hstep)
    exact ⟨hkey, hbuf⟩
  · obtain rfl : _ = t := Host.Outcome.next.inj (hrun.symm.trans hstep)
    exact ⟨keyInv_of_kv_eq_false rfl, bufferInv_of_freeTransient rfl⟩

/-- Settles O23: no key is held and every buffer is empty. -/
theorem resetHasNoKeyAndInvariant : Obligations.ResetHasNoKeyAndInvariant :=
  ⟨reset_kv, keyInv_of_kv_eq_false reset_kv, Nat.zero_le _, Nat.zero_le _, Nat.zero_le _, Nat.zero_le _⟩

/-! ### The step (R40) -/

/-- Settles O8: the decoder finds a well-formed command at the front of its own encoding (`decode_encode_append`), and the
step runs what the decoder finds. -/
theorem stepRunsDecodedCommand : Obligations.StepRunsDecodedCommand :=
  ⟨fun s i more hwf hb => step_command (n := (encode i).length) (by rw [hb]; exact decode_encode_append more hwf),
    bytesInTime_bytes, bytesInTime_reset, fun _ _ _ hdec => step_command hdec⟩

theorem statusCode_toNat_le (st : Status) : (statusCode st).toNat ≤ 5 := by
  cases st with
  | ok => decide
  | error e => cases e <;> decide

/-- Settles O12: a step emits nothing or one response (`step_output`), whose first byte is the code of one of the six
statuses. -/
theorem onlySixStatusCodes : Obligations.OnlySixStatusCodes := by
  refine ⟨⟨rfl, rfl, rfl, rfl, rfl, rfl⟩, fun s t b hstep hstatus => ?_⟩
  obtain ⟨t', hstep', hnone | ⟨st, out, hout⟩⟩ := step_output s
  all_goals obtain rfl : t' = t := Host.Outcome.next.inj (hstep'.symm.trans hstep)
  · exact nomatch (responseStatus_of_output_eq hnone).symm.trans hstatus
  · obtain rfl : statusCode st = b := Option.some.inj ((responseStatus_of_output hout).symm.trans hstatus)
    exact statusCode_toNat_le st

end Sys2Proof.Machine

/-! Reset events and the key-valid bit (spec/70_reset_and_hazards.md R150, R151, spec/10_state.md R15) -/

namespace Sys2Proof.Machine

/-! ### A cipher command without a key (R131) -/

theorem cipherStatus_eq_noKey_iff {kv : Bool} {badIv badData : Prop} [Decidable badIv] [Decidable badData] :
    cipherStatus kv badIv badData = .error .noKey ↔ kv = false := by
  unfold cipherStatus
  split_ifs <;> simp_all

theorem answerStatus_eq_noKey_iff (kv : Bool) (i : Instr) :
    answerStatus kv i = .error .noKey ↔ (∀ key, i ≠ .kexp key) ∧ kv = false := by
  cases i <;> simp [answerStatus, cipherStatus_eq_noKey_iff, ite_eq_iff]

/-- A cipher command without a key does nothing but answer `NoKey` (R131). -/
theorem exec_noKey {i : Instr} {s : State} (hcipher : ∀ key, i ≠ .kexp key) (hkv : s.slot.kv = false) :
    ∃ t, exec i s = .next t ∧ t.slot = s.slot ∧ t.input = s.input ∧ t.output = s.output ++ errorFrame 0x04 := by
  obtain ⟨t, hrun, hstatus⟩ := exec_answerStatus i s
  rw [(answerStatus_eq_noKey_iff _ i).mpr ⟨hcipher, hkv⟩] at hstatus
  obtain ⟨hout, hslot⟩ := exec_error hrun hstatus
  obtain ⟨-, -, -, -, hin, -⟩ := onlySuccessfulKexpWritesKeySlot i s t hrun
  exact ⟨t, hrun, hslot, hin, hout⟩

/-- Settles O17, by the first check of every cipher command. -/
theorem noKeyBeforeAnyOtherCheck : Obligations.NoKeyBeforeAnyOtherCheck :=
  ⟨fun _ _ hcipher hkv => exec_noKey hcipher hkv, fun i s => exec_answers_iff (answerStatus_eq_noKey_iff s.slot.kv i)⟩

/-! ### The reset event -/

/-- A reset event behind bytes among which no whole frame is in time is what the step takes, with those bytes (R150). -/
theorem step_resetEvent {s : State} {bytes : List Byte} {lost : Nat} {rest : List Arrival}
    (hi : s.input = bytes.map .byte ++ .reset lost :: rest)
    (hd : decode (bytes.take (bytes.length - lost)) = .incomplete) :
    step s = .next (resetEvent { s with input := rest }) := by
  have hlead : leadingBytes s.input = bytes := by rw [hi, leadingBytes_append, leadingBytes_reset, List.append_nil]
  exact step_reset (by rw [hi, bytesInTime_reset, hd]) (by rw [hlead, hi])

/-- Settles O50: the step is the reset event, and without a key every cipher command answers `NoKey`. -/
theorem resetEventDropsKeyAndPartialFrame : Obligations.ResetEventDropsKeyAndPartialFrame := by
  intro bytes lost rest s hd hi
  refine ⟨_, step_resetEvent hi hd, rfl, rfl, rfl, fun i hcipher => ?_⟩
  obtain ⟨u, hrun, -, -, hout⟩ := exec_noKey (s := resetEvent { s with input := rest }) hcipher rfl
  exact ⟨u, hrun, hout⟩

/-- A whole frame that no reset event catches is answered, and what stands behind it is left. -/
theorem step_frameBeforeReset {h : Header} {operands : List Byte} {rest : List Arrival} {s : State}
    (hl : operands.length = operandBytes h)
    (hi : s.input = (headerToBytes h ++ operands).map .byte ++ .reset 0 :: rest) :
    ∃ t st out, step s = .next t ∧ t.input = .reset 0 :: rest ∧ t.output = s.output ++ responseFrame st out := by
  have hbytes : bytesInTime s.input = headerToBytes h ++ operands ++ [] := by
    rw [hi, bytesInTime_reset, Nat.sub_zero, List.take_length, List.append_nil]
  have hframe := decode_wholeFrame h operands [] hl
  rw [← hbytes] at hframe
  obtain ⟨t, st, out, hstep, hout, hin⟩ := step_wholeFrame (n := frameLength h)
    (hframe.imp_right fun ⟨why, _, hdec⟩ => ⟨why, hdec⟩)
  have hlen : ((headerToBytes h ++ operands).map Arrival.byte).length = frameLength h := by
    simp [frameLength, Config.headerBytes, hl]
  exact ⟨t, st, out, hstep, by rw [hin, consume_input, hi, ← hlen, List.drop_left], hout⟩

/-- Settles O51: a frame with a byte caught is cut, so the step is the reset event; a frame with none caught is answered
first, and the event is the next step. -/
theorem resetAbandonsCommandInProgress : Obligations.ResetAbandonsCommandInProgress := by
  intro h operands lost rest s hl hi
  refine ⟨fun hlost => ?_, fun hlost => ?_⟩
  · have hcut := decode_cutFrame h operands ((headerToBytes h ++ operands).length - lost) hl
      (by rw [List.length_append, headerToBytes_length]; omega)
    exact ⟨_, step_resetEvent hi hcut, rfl, rfl, rfl⟩
  · subst hlost
    obtain ⟨t, st, out, hstep, hin, hout⟩ := step_frameBeforeReset hl hi
    exact ⟨t, _, st, out, hstep, hin, hout, step_resetEvent (bytes := []) hin rfl, rfl, rfl, rfl⟩

/-! ### `KV` (R15) -/

/-- What a step can do to `KV`: keep it, clear it by a reset event, or set it by loading a key (R15). -/
theorem step_kv_cases {s t : State} (hstep : step s = .next t) :
    t.slot.kv = s.slot.kv ∨
    (t.slot.kv = false ∧ ∃ (bytes : List Byte) (lost : Nat) (rest : List Arrival),
      decode (bytes.take (bytes.length - lost)) = .incomplete ∧
        s.input = bytes.map .byte ++ .reset lost :: rest ∧ t.input = rest) ∨
    (t.slot.kv = true ∧
      ∃ key n, decode (bytesInTime s.input) = .command (.kexp key) n ∧ responseStatus s t = some 0x00) := by
  rcases step_cases s with ⟨i, n, hdec, hrun⟩ | ⟨why, n, -, hrun⟩ | ⟨-, -, hrun⟩ | ⟨rest, hdec, hi, hrun⟩
  · obtain ⟨hslot | ⟨key, rfl, hok, -, hkv, -⟩, -⟩ := exec_slot_work (hrun.symm.trans hstep)
    · exact .inl (congrArg KeySlot.kv hslot)
    · exact .inr (.inr ⟨hkv, key, n, hdec, hok⟩)
  all_goals obtain rfl : _ = t := Host.Outcome.next.inj (hrun.symm.trans hstep)
  · exact .inl rfl
  · exact .inl rfl
  · exact .inr (.inl ⟨rfl, _, _, rest, hdec, hi, rfl⟩)

/-- Settles O52, by `step_kv_cases`: from a held key only the reset event leads to none, from none only a loaded key leads to
one. -/
theorem keyValidChangesOnlyByKexpOrReset : Obligations.KeyValidChangesOnlyByKexpOrReset := by
  intro s t hstep
  refine ⟨fun h1 h0 => ?_, fun h0 h1 => ?_⟩
  · rcases step_kv_cases hstep with hkept | ⟨-, hreset⟩ | ⟨hset, -⟩
    · simp [h1, h0] at hkept
    · exact hreset
    · simp [h0] at hset
  · rcases step_kv_cases hstep with hkept | ⟨hclear, -⟩ | ⟨-, hkexp⟩
    · simp [h1, h0] at hkept
    · simp [h1] at hclear
    · exact hkexp

end Sys2Proof.Machine

/-! What a cipher command answers, as a function of the key slot (spec/10_state.md R18, R23, spec/20_memory.md R31,
spec/44_modes.md R121, R122): what it reads there, and what it does not -/

namespace Sys2Proof.Machine

/-! ### The answer of a cipher command -/

/-- The output of a command that answers `OK`, given the slot's two block functions (R103, R104, R112 to R119). -/
def okOutput (enc dec : List Byte → List Byte) : Instr → List Byte
  | .kexp _ => []
  | .benc data => enc data
  | .bdec data => dec data
  | .ecbe data => ecbBlocks enc (data.length / 16) data
  | .ecbd data => ecbBlocks dec (data.length / 16) data
  | .cbce iv data => cbcEncryptBlocks enc (data.length / 16) iv data
  | .cbcd iv data => cbcDecryptBlocks dec (data.length / 16) iv data
  | .ctre nonce iv data | .ctrd nonce iv data => ctrBlocks enc nonce iv (blockCount data.length) 1 data

/-- The output of a command's response: none on an error (R45). -/
def answerOutput (k : KeySlot) (i : Instr) : List Byte :=
  if answerStatus k.kv i = .ok then okOutput k.encrypt k.decrypt i else []

theorem answerOutput_of_ok {k : KeySlot} {i : Instr} (h : answerStatus k.kv i = .ok) :
    answerOutput k i = okOutput k.encrypt k.decrypt i := if_pos h

theorem blockCommand_answer (f : KeySlot → List Byte → List Byte) (data : List Byte) (s : State) :
    blockCommand f (receive [] [] data s) = .next (answeredState (cipherStatus s.slot.kv False (data.length ≠ 16))
      (if cipherStatus s.slot.kv False (data.length ≠ 16) = .ok then f s.slot data else []) s) := by
  rw [blockCommand_spec, cipherStatus]
  split_ifs <;> simp_all

theorem ecbCommand_answer (f : KeySlot → List Byte → List Byte) (data : List Byte) (s : State) :
    ecbCommand f (receive [] [] data s) = .next (answeredState (cipherStatus s.slot.kv False (data.length % 16 ≠ 0))
      (if cipherStatus s.slot.kv False (data.length % 16 ≠ 0) = .ok
        then ecbBlocks (f s.slot) (data.length / 16) data else []) s) := by
  rw [ecbCommand_spec, cipherStatus]
  split_ifs <;> simp_all

theorem cbcCommand_answer (f : KeySlot → Nat → List Byte → List Byte → List Byte) (iv data : List Byte) (s : State) :
    cbcCommand f (receive iv [] data s) = .next
      (answeredState (cipherStatus s.slot.kv (iv.length ≠ 16) (data.length % 16 ≠ 0))
        (if cipherStatus s.slot.kv (iv.length ≠ 16) (data.length % 16 ≠ 0) = .ok
          then f s.slot (data.length / 16) iv data else []) s) := by
  rw [cbcCommand_spec, cipherStatus]
  split_ifs <;> simp_all

theorem ctrCommand_answer (nonce iv data : List Byte) (s : State) :
    ctrCommand (receive nonce iv data s) = .next
      (answeredState (cipherStatus s.slot.kv (nonce.length ≠ 4 ∨ iv.length ≠ 8) False)
        (if cipherStatus s.slot.kv (nonce.length ≠ 4 ∨ iv.length ≠ 8) False = .ok
          then ctrBlocks s.slot.encrypt nonce iv (blockCount data.length) 1 data else []) s) := by
  rw [ctrCommand_spec, cipherStatus]
  split_ifs <;> simp_all

/-- Everything a cipher command does: it answers by what it reads in the slot, and writes no persistent field. -/
theorem exec_cipher {i : Instr} (s : State) (hcipher : ∀ key, i ≠ .kexp key) :
    exec i s = .next (answeredState (answerStatus s.slot.kv i) (answerOutput s.slot i) s) := by
  cases i with
  | kexp key => exact absurd rfl (hcipher key)
  | benc data => exact blockCommand_answer KeySlot.encrypt data s
  | bdec data => exact blockCommand_answer KeySlot.decrypt data s
  | ecbe data => exact ecbCommand_answer KeySlot.encrypt data s
  | ecbd data => exact ecbCommand_answer KeySlot.decrypt data s
  | cbce iv data => exact cbcCommand_answer (fun k => cbcEncryptBlocks k.encrypt) iv data s
  | cbcd iv data => exact cbcCommand_answer (fun k => cbcDecryptBlocks k.decrypt) iv data s
  | ctre nonce iv data => exact ctrCommand_answer nonce iv data s
  | ctrd nonce iv data => exact ctrCommand_answer nonce iv data s

/-- A cipher command needs a held key to answer `OK` (R131). -/
theorem kv_of_answerStatus_ok {kv : Bool} {i : Instr} (hcipher : ∀ key, i ≠ .kexp key)
    (hok : answerStatus kv i = .ok) : kv = true := by
  by_contra hkv
  have hno := (answerStatus_eq_noKey_iff kv i).mpr ⟨hcipher, Bool.eq_false_of_not_eq_true hkv⟩
  exact nomatch hok.symm.trans hno

/-- Settles O30: the first answer leaves the slot, from which alone the second one is made (`exec_cipher`). -/
theorem cipherCommandsRepeat : Obligations.CipherCommandsRepeat := by
  intro i s t u hcipher hfirst hsecond
  obtain rfl : _ = t := Host.Outcome.next.inj ((exec_cipher s hcipher).symm.trans hfirst)
  obtain rfl : _ = u := Host.Outcome.next.inj ((exec_cipher _ hcipher).symm.trans hsecond)
  exact ⟨_, rfl, rfl⟩

/-! ### One table a direction (R122) -/

theorem okOutput_of_encrypting {i : Instr} (enc dec dec' : List Byte → List Byte)
    (h : i.op = .ecbe ∨ i.op = .cbce ∨ i.op = .ctre ∨ i.op = .ctrd ∨ i.op = .benc) :
    okOutput enc dec i = okOutput enc dec' i := by
  cases i <;> simp [Instr.op] at h <;> rfl

theorem okOutput_of_decrypting {i : Instr} (enc enc' dec : List Byte → List Byte)
    (h : i.op = .ecbd ∨ i.op = .cbcd ∨ i.op = .bdec) : okOutput enc dec i = okOutput enc' dec i := by
  cases i <;> simp [Instr.op] at h <;> rfl

/-- A cipher command answers the same under two slots with the same `KV` that give it the same output. -/
theorem exec_cipher_withSlot {i : Instr} {s t : State} (k : KeySlot) (hcipher : ∀ key, i ≠ .kexp key)
    (hrun : exec i s = .next t) (hkv : k.kv = s.slot.kv)
    (hout : okOutput k.encrypt k.decrypt i = okOutput s.slot.encrypt s.slot.decrypt i) :
    ∃ u, exec i { s with slot := k } = .next u ∧ u.output = t.output := by
  obtain rfl : _ = t := Host.Outcome.next.inj ((exec_cipher s hcipher).symm.trans hrun)
  refine ⟨_, exec_cipher _ hcipher, ?_⟩
  simp [answerOutput, hkv, hout]

/-- Settles O32: `Encrypt` reads no word of `DK` and `Decrypt` none of `EK`, and each command runs one of them only. -/
theorem directionsReadOneTable : Obligations.DirectionsReadOneTable := by
  refine ⟨fun i s t dk hop hrun => ?_, fun i s t ek hop hrun => ?_⟩
  · have hcipher : ∀ key, i ≠ .kexp key := by rintro key rfl; simp [Instr.op] at hop
    exact exec_cipher_withSlot _ hcipher hrun rfl (okOutput_of_encrypting s.slot.encrypt _ _ hop)
  · have hcipher : ∀ key, i ≠ .kexp key := by rintro key rfl; simp [Instr.op] at hop
    exact exec_cipher_withSlot _ hcipher hrun rfl (okOutput_of_decrypting _ _ s.slot.decrypt hop)

/-! ### The schedule words the cipher reads (R16, R100, R101) -/

theorem addRoundKey_congr {ek ek' : Nat → Word} {nr g : Nat} (h : ∀ i, i < 4 * (nr + 1) → ek i = ek' i) (hg : g ≤ nr)
    (st : Columns) : addRoundKey st ek g = addRoundKey st ek' g := by
  rw [addRoundKey, h _ (by omega), h _ (by omega), h _ (by omega), h _ (by omega), addRoundKey]

theorem mem_middleRounds {nr r : Nat} (h : r ∈ List.range' 1 (nr - 1)) : 1 ≤ r ∧ r < nr := by
  rw [List.mem_range'_1] at h
  omega

/-- `Encrypt` reads no word past the schedule's `4 * (nr + 1)` (R100). -/
theorem encryptBlock_congr {nr : Nat} {ek ek' : Nat → Word} (h : ∀ i, i < 4 * (nr + 1) → ek i = ek' i) :
    encryptBlock nr ek = encryptBlock nr ek' := by
  funext p
  have hround : ∀ st, ∀ r ∈ List.range' 1 (nr - 1), encryptRound ek st r = encryptRound ek' st r :=
    fun st r hr => addRoundKey_congr h (mem_middleRounds hr).2.le _
  rw [encryptBlock, encryptState, addRoundKey_congr h (Nat.zero_le nr), List.foldl_ext _ _ _ hround,
    addRoundKey_congr h le_rfl, encryptBlock, encryptState]

/-- `Decrypt` reads no word past the schedule's `4 * (nr + 1)` (R101). -/
theorem decryptBlock_congr {nr : Nat} {dk dk' : Nat → Word} (h : ∀ i, i < 4 * (nr + 1) → dk i = dk' i) :
    decryptBlock nr dk = decryptBlock nr dk' := by
  funext c
  have hround : ∀ st, ∀ r ∈ (List.range' 1 (nr - 1)).reverse, decryptRound dk st r = decryptRound dk' st r :=
    fun st r hr => addRoundKey_congr h (mem_middleRounds (List.mem_reverse.mp hr)).2.le _
  rw [decryptBlock, decryptState, addRoundKey_congr h le_rfl, List.foldl_ext _ _ _ hround,
    addRoundKey_congr h (Nat.zero_le nr), decryptBlock, decryptState]

/-! ### The visible part of the slot (R18) -/

/-- With a key held, slots that no command can tell apart have the same block functions. -/
theorem SameKey.blockFunctions_eq {k l : KeySlot} (h : SameKey k l) (hkv : k.kv = true) :
    k.encrypt = l.encrypt ∧ k.decrypt = l.decrypt := by
  obtain ⟨-, hvisible⟩ := h
  obtain ⟨-, hnr, hwords⟩ := hvisible hkv
  refine ⟨funext fun p => ?_, funext fun c => ?_⟩
  · rw [KeySlot.encrypt, KeySlot.encrypt, ← hnr, encryptBlock_congr fun i hi => (hwords i hi).1]
  · rw [KeySlot.decrypt, KeySlot.decrypt, ← hnr, decryptBlock_congr fun i hi => (hwords i hi).2]

theorem SameKey.answerOutput_eq {k l : KeySlot} (h : SameKey k l) {i : Instr} (hcipher : ∀ key, i ≠ .kexp key) :
    answerOutput k i = answerOutput l i := by
  rw [answerOutput, answerOutput, ← h.1]
  refine if_ctx_congr Iff.rfl (fun hok => ?_) fun _ => rfl
  obtain ⟨henc, hdec⟩ := h.blockFunctions_eq (kv_of_answerStatus_ok hcipher hok)
  rw [henc, hdec]

/-- The expansion of a key is what a command can see of the slot after `KEXP`, whatever was there before (R94, R97). -/
theorem sameKey_commit_expandKey {key : List Byte} (h : legalKeyLength key.length = true) (s u : State) :
    SameKey (commit (expandKey key) s).slot (commit (expandKey key) u).slot := by
  obtain ⟨hlen, -, -, hnr, -⟩ := keyHeld_commit_expandKey key s h
  refine ⟨rfl, fun _ => ⟨rfl, rfl, fun i hi => ?_⟩⟩
  rw [hnr] at hi
  have hfit : tableWords (rounds key.length) ≤ 60 := by simp only [tableWords, rounds, keyWords]; omega
  have hword (ws : List Word) (free free' : Nat → Word) :
      storeWord (storeTable (tableWords (rounds key.length)) ws free) i =
        storeWord (storeTable (tableWords (rounds key.length)) ws free') i :=
    (storeWord_storeTable _ ws free i hi hfit).trans (storeWord_storeTable _ ws free' i hi hfit).symm
  exact ⟨hword _ _ _, hword _ _ _⟩

/-- Settles O24: each of the three runs commits the expansion of the same key (`sameKey_commit_expandKey`). -/
theorem kexpDependsOnKeyOnly : Obligations.KexpDependsOnKeyOnly := by
  intro key r q s t u hlen hs ht hu
  have hlegal := (legalKeyLength_iff _).mpr hlen
  obtain rfl : _ = s := Host.Outcome.next.inj ((exec_kexp_legal r hlegal).symm.trans hs)
  obtain rfl : _ = t := Host.Outcome.next.inj ((exec_kexp_legal _ hlegal).symm.trans ht)
  obtain rfl : _ = u := Host.Outcome.next.inj ((exec_kexp_legal q hlegal).symm.trans hu)
  exact ⟨sameKey_commit_expandKey hlegal _ _, sameKey_commit_expandKey hlegal _ _⟩

/-! ### What the host cannot see (R18, R23, R31) -/

/-- Between two runs that begin at `s` and `s'` and end at `t` and `t'` the host sees no difference. -/
def SeenAlike (s s' t t' : State) : Prop :=
  t.input = t'.input ∧ SameKey t.slot t'.slot ∧
    ∃ response, t.output = s.output ++ response ∧ t'.output = s'.output ++ response

theorem seenAlike_answeredState {s s' : State} (hin : s.input = s'.input) (hkey : SameKey s.slot s'.slot) (st : Status)
    (out : List Byte) : SeenAlike s s' (answeredState st out s) (answeredState st out s') :=
  ⟨hin, hkey, _, rfl, rfl⟩

/-- A command is seen alike from slots that no command can tell apart. -/
theorem exec_seenAlike {s s' : State} (hin : s.input = s'.input) (hkey : SameKey s.slot s'.slot) (i : Instr) :
    ∃ t t', exec i s = .next t ∧ exec i s' = .next t' ∧ SeenAlike s s' t t' := by
  by_cases hcipher : ∀ key, i ≠ .kexp key
  · refine ⟨_, _, exec_cipher s hcipher, exec_cipher s' hcipher, ?_⟩
    rw [← hkey.answerOutput_eq hcipher, ← hkey.1]
    exact seenAlike_answeredState hin hkey _ _
  · push Not at hcipher
    obtain ⟨key, rfl⟩ := hcipher
    by_cases hlegal : legalKeyLength key.length = true
    · exact ⟨_, _, exec_kexp_legal s hlegal, exec_kexp_legal s' hlegal, hin, sameKey_commit_expandKey hlegal s s', _, rfl,
        rfl⟩
    · exact ⟨_, _, exec_kexp_badLength s hlegal, exec_kexp_badLength s' hlegal, seenAlike_answeredState hin hkey _ _⟩

/-- A step is seen alike when the same has arrived and no command can tell the slots apart. -/
theorem step_seenAlike {s s' : State} (hin : s.input = s'.input) (hkey : SameKey s.slot s'.slot) :
    ∃ t t', step s = .next t ∧ step s' = .next t' ∧ SeenAlike s s' t t' := by
  rcases step_cases s with ⟨i, n, hdec, -⟩ | ⟨why, n, hdec, hrun⟩ | ⟨hdec, hi, hrun⟩ | ⟨rest, hdec, hi, hrun⟩
  · rw [step_command hdec, step_command (hin ▸ hdec)]
    exact exec_seenAlike (s := consume n s) (s' := consume n s') (congrArg (List.drop n) hin) hkey i
  · exact ⟨_, _, hrun, step_illegal (hin ▸ hdec), congrArg (List.drop n) hin, hkey, _, rfl, rfl⟩
  · exact ⟨s, s', hrun, step_idle (hin ▸ hdec) (hin ▸ hi), hin, hkey, [], by simp⟩
  · exact ⟨_, _, hrun, step_reset (hin ▸ hdec) (hin ▸ hi), rfl, ⟨rfl, nofun⟩, [], by simp⟩

/-- Settles O31, by the four things a step can do (`step_seenAlike`). -/
theorem hiddenStateIsNotObservable : Obligations.HiddenStateIsNotObservable := by
  intro s s' t t' hin hkey hstep hstep'
  obtain ⟨u, u', hu, hu', hseen⟩ := step_seenAlike hin hkey
  obtain rfl : u = t := Host.Outcome.next.inj (hu.symm.trans hstep)
  obtain rfl : u' = t' := Host.Outcome.next.inj (hu'.symm.trans hstep')
  exact hseen

end Sys2Proof.Machine

/-! Maps that are linear over XOR, and the field product as one (spec/40_gf_sbox.md R61 to R68): such a map is fixed by
what it does to the powers of two, so its laws are checked there -/

namespace Sys2Proof.Machine

/-! ### Linear maps -/

/-- The map is linear over XOR. -/
def XorLinear {v w : Nat} (f : BitVec v → BitVec w) : Prop := ∀ a b, f (a ^^^ b) = f a ^^^ f b

section
variable {u v w : Nat} {f g : BitVec v → BitVec w}

theorem XorLinear.map_zero (hf : XorLinear f) : f 0 = 0 := by
  have h := hf 0 0
  rwa [BitVec.xor_self, BitVec.xor_self] at h

theorem xorLinear_zero : XorLinear fun _ : BitVec v => (0 : BitVec w) := fun _ _ => BitVec.xor_self.symm

theorem xorLinear_id : XorLinear fun a : BitVec v => a := fun _ _ => rfl

theorem XorLinear.comp (hf : XorLinear f) {h : BitVec u → BitVec v} (hh : XorLinear h) : XorLinear fun a => f (h a) :=
  fun a b => (congrArg f (hh a b)).trans (hf _ _)

theorem XorLinear.xor (hf : XorLinear f) (hg : XorLinear g) : XorLinear fun a => f a ^^^ g a := by
  intro a b
  simp only [hf a b, hg a b]
  ac_rfl

/-- One more bit of `a` is one more power of two. -/
theorem setWidth_succ_eq_xor (a : BitVec w) (i : Nat) :
    (a.setWidth (i + 1)).setWidth w = (a.setWidth i).setWidth w ^^^ if a.getLsbD i then BitVec.twoPow w i else 0 := by
  apply BitVec.eq_of_getLsbD_eq
  intro j hj
  have hpower : (if a.getLsbD i then BitVec.twoPow w i else 0).getLsbD j = (decide (i = j) && a.getLsbD i) := by
    cases a.getLsbD i
    · simp
    · simp [BitVec.getLsbD_twoPow]
      omega
  rw [BitVec.getLsbD_xor, hpower]
  simp only [BitVec.getLsbD_setWidth, hj, decide_true, Bool.true_and]
  obtain h | rfl | h := Nat.lt_trichotomy j i
  · simp [h, h.ne', Nat.lt_succ_of_lt h]
  · simp
  · simp [h.ne, Nat.not_lt.mpr h.le, Nat.not_lt.mpr h]

/-- Linear maps that agree on the powers of two are equal. -/
theorem XorLinear.ext (hf : XorLinear f) (hg : XorLinear g)
    (h : ∀ i, i < v → f (BitVec.twoPow v i) = g (BitVec.twoPow v i)) (a : BitVec v) : f a = g a := by
  have hprefix : ∀ n, n ≤ v → f ((a.setWidth n).setWidth v) = g ((a.setWidth n).setWidth v) := by
    intro n hn
    induction n with
    | zero => rw [BitVec.of_length_zero (x := a.setWidth 0)]; exact hf.map_zero.trans hg.map_zero.symm
    | succ n ih =>
      rw [setWidth_succ_eq_xor, hf, hg, ih (by omega)]
      by_cases hbit : a.getLsbD n
      · rw [if_pos hbit, h n hn]
      · rw [if_neg hbit, hf.map_zero, hg.map_zero]
  simpa using hprefix v le_rfl

end

/-- A product that is linear in each operand. -/
def XorBilinear {w : Nat} (p : Byte → Byte → BitVec w) : Prop := (∀ a, XorLinear (p a)) ∧ ∀ b, XorLinear fun a => p a b

/-- Products linear in each operand that agree on the powers of two are equal. -/
theorem XorBilinear.ext {w : Nat} {p q : Byte → Byte → BitVec w} (hp : XorBilinear p) (hq : XorBilinear q)
    (h : ∀ i < 8, ∀ j < 8, p (BitVec.twoPow 8 i) (BitVec.twoPow 8 j) = q (BitVec.twoPow 8 i) (BitVec.twoPow 8 j))
    (a b : Byte) : p a b = q a b :=
  (hp.1 a).ext (hq.1 a) (fun j hj => (hp.2 _).ext (hq.2 _) (fun i hi => h i hi j hj) a) b

/-! ### `Mul` is linear in each operand (R61, R62) -/

theorem xorLinear_xtime : XorLinear xtime := by
  intro a b
  have hmsb : (if (a ^^^ b).msb then (0x1B : Byte) else 0) = (if a.msb then 0x1B else 0) ^^^ if b.msb then 0x1B else 0 := by
    rw [BitVec.msb_xor]
    cases a.msb <;> cases b.msb <;> rfl
  rw [xtime, xtime, xtime, hmsb, BitVec.shiftLeft_xor_distrib]
  ac_rfl

/-- What the iterations of `Mul` at the bits `ns` of `b` add up to, from the power `p` of `a` (R62). -/
def mulSum (b p : Byte) : List Nat → Byte
  | [] => 0
  | n :: ns => (if b.getLsbD n then p else 0) ^^^ mulSum b (xtime p) ns

theorem foldl_mulStep (b r p : Byte) (ns : List Nat) : (ns.foldl (mulStep b) (r, p)).1 = r ^^^ mulSum b p ns := by
  induction ns generalizing r p with
  | nil => exact BitVec.xor_zero.symm
  | cons n ns ih =>
    rw [List.foldl_cons, mulStep, ih, mulSum, ← BitVec.xor_assoc]
    by_cases hbit : b.getLsbD n <;> simp [hbit]

theorem mul_eq_mulSum (a b : Byte) : mul a b = mulSum b a (List.range 8) := by
  rw [mul, foldl_mulStep]
  exact BitVec.zero_xor

theorem xorLinear_mulSum_power (b : Byte) (ns : List Nat) : XorLinear fun p => mulSum b p ns := by
  induction ns with
  | nil => exact xorLinear_zero
  | cons n ns ih =>
    have hterm : XorLinear fun p : Byte => if b.getLsbD n then p else 0 := fun p q => by
      by_cases hbit : b.getLsbD n <;> simp [hbit]
    exact hterm.xor (XorLinear.comp ih xorLinear_xtime)

/-- The choice of `x` by one bit is linear in the operand the bit stands in. -/
theorem xorLinear_bit {v w : Nat} (x : BitVec w) (n : Nat) :
    XorLinear fun b : BitVec v => if b.getLsbD n then x else 0 := by
  intro b c
  simp only [BitVec.getLsbD_xor]
  cases b.getLsbD n <;> cases c.getLsbD n <;> simp

theorem xorLinear_mulSum_bits (p : Byte) (ns : List Nat) : XorLinear fun b => mulSum b p ns := by
  induction ns generalizing p with
  | nil => exact xorLinear_zero
  | cons n ns ih => exact (xorLinear_bit p n).xor (ih (xtime p))

theorem xorBilinear_mul : XorBilinear mul := by
  refine ⟨fun a b c => ?_, fun b a c => ?_⟩
  · simp only [mul_eq_mulSum]
    exact xorLinear_mulSum_bits a _ b c
  · simp only [mul_eq_mulSum]
    exact xorLinear_mulSum_power b _ a c

theorem gfMul_xor (a b c : Byte) : mul a (b ^^^ c) = mul a b ^^^ mul a c := xorBilinear_mul.1 a b c

/-! ### The laws of `Mul` (R63) -/

theorem gfMul_comm (a b : Byte) : mul a b = mul b a := by
  have hswap : XorBilinear fun a b => mul b a := ⟨xorBilinear_mul.2, xorBilinear_mul.1⟩
  exact xorBilinear_mul.ext hswap (by decide) a b

@[simp] theorem gfMul_zero (a : Byte) : mul a 0#8 = 0#8 := (xorBilinear_mul.1 a).map_zero

@[simp] theorem gfMul_one (a : Byte) : mul a 1#8 = a :=
  (xorBilinear_mul.2 1).ext xorLinear_id (by decide) a

@[simp] theorem one_gfMul (a : Byte) : mul 1#8 a = a := by rw [gfMul_comm, gfMul_one]

theorem gfMul_assoc (a b c : Byte) : mul (mul a b) c = mul a (mul b c) := by
  refine (xorBilinear_mul.1 _).ext ((xorBilinear_mul.1 a).comp (xorBilinear_mul.1 b)) (fun k hk => ?_) c
  have hleft : XorBilinear fun a b => mul (mul a b) (BitVec.twoPow 8 k) :=
    ⟨fun a => (xorBilinear_mul.2 _).comp (xorBilinear_mul.1 a), fun b => (xorBilinear_mul.2 _).comp (xorBilinear_mul.2 b)⟩
  have hright : XorBilinear fun a b => mul a (mul b (BitVec.twoPow 8 k)) :=
    ⟨fun a => (xorBilinear_mul.1 a).comp (xorBilinear_mul.2 _), fun b => xorBilinear_mul.2 _⟩
  have hbasis : ∀ k < 8, ∀ i < 8, ∀ j < 8,
      mul (mul (BitVec.twoPow 8 i) (BitVec.twoPow 8 j)) (BitVec.twoPow 8 k) =
        mul (BitVec.twoPow 8 i) (mul (BitVec.twoPow 8 j) (BitVec.twoPow 8 k)) := by decide +kernel
  exact hleft.ext hright (hbasis k hk) a b

/-! ### `MulBrute` (R63) -/

/-- A sum of linear maps is linear. -/
theorem xorLinear_xorSum {v : Nat} {f : BitVec v → Nat → BitVec 16} (hf : ∀ i, XorLinear fun a => f a i)
    (is : List Nat) : XorLinear fun a => xorSum (f a) is := by
  induction is with
  | nil => exact xorLinear_zero
  | cons i is ih => exact (hf i).xor ih

theorem xorBilinear_carrylessProduct : XorBilinear carrylessProduct := by
  refine ⟨fun a => xorLinear_xorSum (fun i => xorLinear_xorSum (fun j => ?_) _) _,
    fun b => xorLinear_xorSum (fun i => xorLinear_xorSum (fun j => ?_) _) _⟩
  · cases ha : a.getLsbD i
    · exact xorLinear_zero
    · exact xorLinear_bit _ j
  · cases hb : b.getLsbD j
    · simp only [Bool.and_false]
      exact xorLinear_zero
    · simp only [Bool.and_true]
      exact xorLinear_bit _ i

theorem xorLinear_reduceAt (k : Nat) : XorLinear fun p => reduceAt p k := by
  have hsplit : (fun p => reduceAt p k) = fun p => p ^^^ if p.getLsbD k then 0x11B#16 <<< (k - 8) else 0 := by
    funext p
    cases h : p.getLsbD k <;> simp [reduceAt, h]
  rw [hsplit]
  exact xorLinear_id.xor (xorLinear_bit _ k)

theorem xorLinear_reduce (ks : List Nat) : XorLinear fun p => ks.foldl reduceAt p := by
  induction ks with
  | nil => exact xorLinear_id
  | cons k ks ih => exact ih.comp (xorLinear_reduceAt k)

theorem xorBilinear_mulBrute : XorBilinear mulBrute := by
  have hlow : XorLinear fun p : BitVec 16 => (([14, 13, 12, 11, 10, 9, 8].foldl reduceAt p).setWidth 8 : Byte) :=
    XorLinear.comp (f := fun p : BitVec 16 => (p.setWidth 8 : Byte)) (fun _ _ => BitVec.setWidth_xor) (xorLinear_reduce _)
  exact ⟨fun a => hlow.comp (xorBilinear_carrylessProduct.1 a), fun b => hlow.comp (xorBilinear_carrylessProduct.2 b)⟩

/-- The iterated product is the brute-force one, since the 64 products of powers of `x` agree (R63). -/
theorem mul_eq_mulBrute (a b : Byte) : mul a b = mulBrute a b :=
  xorBilinear_mul.ext xorBilinear_mulBrute (by decide +kernel) a b

/-- Settles O41: both products are linear in each operand, so every law holds when it holds on the powers of `x`. -/
theorem mulIsFieldProduct : Obligations.MulIsFieldProduct :=
  ⟨fun a b => ⟨mul_eq_mulBrute a b, gfMul_comm a b, gfMul_zero a, gfMul_one a⟩,
    fun a b c => ⟨gfMul_assoc a b c, gfMul_xor a b c⟩⟩

/-! ### The tables (R64 to R68) -/

@[simp] theorem invSbox_sbox (b : Byte) : invSbox (sbox b) = b := by
  revert b
  decide +kernel

@[simp] theorem sbox_invSbox (b : Byte) : sbox (invSbox b) = b := by
  revert b
  decide +kernel

theorem mem_allBytes (c : Byte) : c ∈ (List.range 256).map (BitVec.ofNat 8) :=
  List.mem_map.mpr ⟨c.toNat, List.mem_range.mpr c.isLt, BitVec.ofNat_toNat ..⟩

/-- The search for the inverse finds the one byte whose product with `b` is 1 (R64). -/
theorem inv_eq_of_mul_eq_one {b c : Byte} (h : mul b c = 1) : inv b = c := by
  have hunique (d : Byte) (hd : mul b d = 1) : d = c := by
    calc d = mul (mul b c) d := by simp [h]
      _ = mul (mul b d) c := by rw [gfMul_assoc, gfMul_comm c, ← gfMul_assoc]
      _ = c := by simp [hd]
  unfold inv
  cases hfind : ((List.range 256).map (BitVec.ofNat 8)).find? fun c => mul b c == 1 with
  | none => exact absurd h (by simpa using List.find?_eq_none.mp hfind c (mem_allBytes c))
  | some d => exact hunique d (by simpa using List.find?_some hfind)

theorem inv_zero : inv 0 = 0 := by decide +kernel

/-- The inverse of the affine map of R65. -/
def unaffine (v : Byte) : Byte := v.rotateLeft 1 ^^^ v.rotateLeft 3 ^^^ v.rotateLeft 6 ^^^ 0x05

theorem affine_unaffine (v : Byte) : affine (unaffine v) = v := by
  revert v
  decide +kernel

/-- The entries of `SBOX`, with the affine map undone, are inverses: one product for each nonzero byte (R66). -/
theorem mul_unaffine_sbox {b : Byte} (hb : b ≠ 0) : mul b (unaffine (sbox b)) = 1 := by
  revert b
  decide +kernel

theorem inv_eq_unaffine_sbox (b : Byte) : inv b = unaffine (sbox b) := by
  by_cases hb : b = 0
  · rw [hb, inv_zero]
    rfl
  · exact inv_eq_of_mul_eq_one (mul_unaffine_sbox hb)

/-- Settles O42: the inverse of `b` is `SBOX[b]` with the affine map undone, so the map of it is `SBOX[b]` again. -/
theorem tablesAreAffineInverse : Obligations.TablesAreAffineInverse := by
  refine ⟨fun b => ⟨?_, invSbox_sbox b, sbox_invSbox b, fun hb => ?_⟩, inv_zero, rfl, by decide⟩
  · rw [inv_eq_unaffine_sbox, affine_unaffine]
  · rw [inv_eq_unaffine_sbox, mul_unaffine_sbox hb]

end Sys2Proof.Machine

/-! Words and columns (spec/41_round_transforms.md R70, R78 to R85): big-endian packing, `MixColumn` and its inverse, and
what the round transformations do to each other -/

namespace Sys2Proof.Machine

/-! ### Packing (R70) -/

theorem byteAt_eq_extractLsb' (w : Word) (r : Nat) : byteAt w r = w.extractLsb' (24 - 8 * r) 8 := by
  apply BitVec.eq_of_getLsbD_eq
  intro i hi
  simp [byteAt]

theorem byteAt_toNat (w : Word) (r : Nat) : (byteAt w r).toNat = w.toNat / 2 ^ (24 - 8 * r) % 2 ^ 8 := by
  simp [byteAt, Nat.shiftRight_eq_div_pow]

/-- A word's number is that of its bytes, the first most significant. -/
theorem toNat_eq_bytes (w : Word) : w.toNat =
    (byteAt w 0).toNat * 2 ^ 24 + (byteAt w 1).toNat * 2 ^ 16 + (byteAt w 2).toNat * 2 ^ 8 + (byteAt w 3).toNat := by
  have hlt := w.isLt
  simp only [byteAt_toNat]
  omega

/-- Settles O39: the lanes of a packed word are the laws of `Laws/Bytes.lean`, and its number is that of its lanes. -/
theorem wordPacksBigEndian : Obligations.WordPacksBigEndian := by
  refine ⟨fun b0 b1 b2 b3 => ⟨?_, ?_, ?_, ?_, ?_⟩, fun w r _ => byteAt_eq_extractLsb' w r, packWord_byteAt⟩
  · exact byteAt_packWord_zero b0 b1 b2 b3
  · exact byteAt_packWord_one b0 b1 b2 b3
  · exact byteAt_packWord_two b0 b1 b2 b3
  · exact byteAt_packWord_three b0 b1 b2 b3
  · simpa using toNat_eq_bytes (packWord b0 b1 b2 b3)

/-! ### `MixColumn` (R78, R79) -/

/-- Settles O45, byte by byte: each byte of the result is the four products of its row, in another order. -/
theorem mixColumnIsPolynomialProduct : Obligations.MixColumnIsPolynomialProduct := by
  intro w k hk
  constructor
  · interval_cases k <;> simp [mixColumn] <;> ac_rfl
  · interval_cases k <;> simp [invMixColumn] <;> ac_rfl

theorem xorLinear_mixColumn : XorLinear mixColumn := by
  intro u v
  simp only [mixColumn, byteAt_xor, gfMul_xor, packWord_xor]
  congr 1 <;> ac_rfl

theorem xorLinear_invMixColumn : XorLinear invMixColumn := by
  intro u v
  simp only [invMixColumn, byteAt_xor, gfMul_xor, packWord_xor]
  congr 1 <;> ac_rfl

@[simp] theorem invMixColumn_mixColumn (w : Word) : invMixColumn (mixColumn w) = w :=
  (xorLinear_invMixColumn.comp xorLinear_mixColumn).ext xorLinear_id (by decide +kernel) w

@[simp] theorem mixColumn_invMixColumn (w : Word) : mixColumn (invMixColumn w) = w :=
  (xorLinear_mixColumn.comp xorLinear_invMixColumn).ext xorLinear_id (by decide +kernel) w

/-- Settles O46: both are linear, so they undo each other on every word when they do on the 32 powers of two. -/
theorem mixColumnsInvertEachOther : Obligations.MixColumnsInvertEachOther :=
  ⟨fun w => ⟨invMixColumn_mixColumn w, mixColumn_invMixColumn w⟩,
    fun u v => ⟨xorLinear_mixColumn u v, xorLinear_invMixColumn u v⟩⟩

/-! ### The cipher state (R74 to R82) -/

theorem col_map (f : Word → Word) (s : Columns) {c : Nat} (hc : c < 4) : (s.map f).col c = f (s.col c) := by
  interval_cases c <;> rfl

theorem byteAt_invSubWord (w : Word) {r : Nat} (hr : r < 4) : byteAt (invSubWord w) r = invSbox (byteAt w r) :=
  byteAt_packWord (fun i => invSbox (byteAt w i)) hr

theorem byteAt_col_subBytes (s : Columns) {c r : Nat} (hc : c < 4) (hr : r < 4) :
    byteAt ((subBytes s).col c) r = sbox (byteAt (s.col c) r) := by
  rw [subBytes, col_map _ s hc, byteAt_subWord _ hr]

theorem byteAt_col_invSubBytes (s : Columns) {c r : Nat} (hc : c < 4) (hr : r < 4) :
    byteAt ((invSubBytes s).col c) r = invSbox (byteAt (s.col c) r) := by
  rw [invSubBytes, col_map _ s hc, byteAt_invSubWord _ hr]

/-- Settles O47: the substitution changes a byte by its value alone, the shift moves it by its place alone. -/
theorem subBytesCommutesWithShiftRows : Obligations.SubBytesCommutesWithShiftRows := by
  refine fun s => ⟨columns_ext fun c r hc hr => ?_, columns_ext fun c r hc hr => ?_⟩
  · rw [byteAt_col_shiftRows _ hc hr, byteAt_col_subBytes _ (Nat.mod_lt _ (by decide)) hr, byteAt_col_subBytes _ hc hr,
      byteAt_col_shiftRows _ hc hr]
  · rw [byteAt_col_invShiftRows _ hc hr, byteAt_col_invSubBytes _ (Nat.mod_lt _ (by decide)) hr,
      byteAt_col_invSubBytes _ hc hr, byteAt_col_invShiftRows _ hc hr]

@[simp] theorem invSubBytes_subBytes (s : Columns) : invSubBytes (subBytes s) = s :=
  columns_ext fun c r hc hr => by rw [byteAt_col_invSubBytes _ hc hr, byteAt_col_subBytes _ hc hr, invSbox_sbox]

@[simp] theorem subBytes_invSubBytes (s : Columns) : subBytes (invSubBytes s) = s :=
  columns_ext fun c r hc hr => by rw [byteAt_col_subBytes _ hc hr, byteAt_col_invSubBytes _ hc hr, sbox_invSbox]

@[simp] theorem invMixColumns_mixColumns (s : Columns) : invMixColumns (mixColumns s) = s := by
  simp [invMixColumns, mixColumns, Columns.map]

@[simp] theorem mixColumns_invMixColumns (s : Columns) : mixColumns (invMixColumns s) = s := by
  simp [invMixColumns, mixColumns, Columns.map]

theorem col_addRoundKey (s : Columns) (sched : Nat → Word) (g : Nat) {c : Nat} (hc : c < 4) :
    (addRoundKey s sched g).col c = s.col c ^^^ sched (4 * g + c) :=
  col_mk (fun c => s.col c ^^^ sched (4 * g + c)) hc

@[simp] theorem addRoundKey_addRoundKey (s : Columns) (sched : Nat → Word) (g : Nat) :
    addRoundKey (addRoundKey s sched g) sched g = s := by
  simp [addRoundKey]

/-- Settles O49: column `c` takes word `c` of the group, and the same word twice cancels. -/
theorem addRoundKeyXorsGroup : Obligations.AddRoundKeyXorsGroup :=
  fun s sched g => ⟨fun _ hc => col_addRoundKey s sched g hc, addRoundKey_addRoundKey s sched g⟩

end Sys2Proof.Machine

/-! `Decrypt` and `Encrypt` (spec/43_block_cipher.md R102, R105): the straight inverse undoes the rounds one by one, and
`Decrypt` is the straight inverse -/

namespace Sys2Proof.Machine

/-! ### `Decrypt` over `DK` is the straight inverse over `EK` (R105) -/

/-- `InvMixColumns` passes a round key that has been through `InvMixColumn` itself (R93, R85). -/
theorem invMixColumns_addRoundKey {ek dk : Nat → Word} {g : Nat}
    (h : ∀ c, c < 4 → dk (4 * g + c) = invMixColumn (ek (4 * g + c))) (st : Columns) :
    invMixColumns (addRoundKey st ek g) = addRoundKey (invMixColumns st) dk g := by
  have hword (w : Word) (c : Nat) (hc : c < 4) :
      invMixColumn (w ^^^ ek (4 * g + c)) = invMixColumn w ^^^ dk (4 * g + c) := by
    rw [xorLinear_invMixColumn, h c hc]
  exact (Columns.mk.injEq ..).mpr
    ⟨hword _ 0 (by decide), hword _ 1 (by decide), hword _ 2 (by decide), hword _ 3 (by decide)⟩

section
variable {nr : Nat} {ek dk : Nat → Word} (h : DecryptionWords nr ek dk)
include h

theorem addRoundKey_outerGroup {g : Nat} (hg : g = 0 ∨ g = nr) (st : Columns) :
    addRoundKey st dk g = addRoundKey st ek g := by
  have hword (c : Nat) (hc : c < 4) : dk (4 * g + c) = ek (4 * g + c) := (h _ (by omega)).2 (by omega)
  have hword0 : dk (4 * g) = ek (4 * g) := hword 0 (by decide)
  rw [addRoundKey, addRoundKey, hword0, hword 1 (by decide), hword 2 (by decide), hword 3 (by decide)]

theorem decryptRound_eq_straightRound {r : Nat} (hr : 1 ≤ r ∧ r < nr) (st : Columns) :
    decryptRound dk st r = straightRound ek st r :=
  (invMixColumns_addRoundKey (fun _ _ => (h _ (by omega)).1 (by omega)) _).symm

theorem decryptBlock_eq_decryptStraight (block : List Byte) : decryptBlock nr dk block = decryptStraight nr ek block := by
  have hround : ∀ st, ∀ r ∈ (List.range' 1 (nr - 1)).reverse, decryptRound dk st r = straightRound ek st r :=
    fun st r hr => decryptRound_eq_straightRound h (mem_middleRounds (List.mem_reverse.mp hr)) st
  rw [decryptBlock, decryptState, addRoundKey_outerGroup h (.inr rfl), List.foldl_ext _ _ _ hround,
    addRoundKey_outerGroup h (.inl rfl), decryptStraight]

end

/-- Settles O34: in a middle round `InvMixColumns` passes the round key, whose words have been through it (R93). -/
theorem straightInverseAgrees : Obligations.StraightInverseAgrees := fun _ _ _ block h =>
  decryptBlock_eq_decryptStraight h block

/-! ### The straight inverse and `Encrypt` undo each other (R102) -/

/-- The straight rounds, in the opposite order, undo the rounds of `Encrypt`. -/
theorem foldl_straightRound_encryptRound (ek : Nat → Word) (rs : List Nat) (st : Columns) :
    rs.reverse.foldl (straightRound ek) (shiftRows (subBytes (rs.foldl (encryptRound ek) st))) =
      shiftRows (subBytes st) := by
  induction rs generalizing st with
  | nil => rfl
  | cons r rs ih =>
    rw [List.foldl_cons, List.reverse_cons, List.foldl_concat, ih]
    simp [straightRound, encryptRound]

/-- The rounds of `Encrypt`, in the opposite order, undo the straight rounds. -/
theorem foldl_encryptRound_straightRound (ek : Nat → Word) (rs : List Nat) (st : Columns) :
    rs.foldl (encryptRound ek) (invSubBytes (invShiftRows (rs.reverse.foldl (straightRound ek) st))) =
      invSubBytes (invShiftRows st) := by
  induction rs with
  | nil => rfl
  | cons r rs ih =>
    rw [List.reverse_cons, List.foldl_concat, List.foldl_cons]
    simpa [encryptRound, straightRound] using ih

theorem decryptStraight_encryptBlock (nr : Nat) (ek : Nat → Word) {block : List Byte} (hblock : block.length = 16) :
    decryptStraight nr ek (encryptBlock nr ek block) = block := by
  rw [decryptStraight, encryptBlock, loadState_storeState, encryptState, addRoundKey_addRoundKey,
    foldl_straightRound_encryptRound, invShiftRows_shiftRows, invSubBytes_subBytes, addRoundKey_addRoundKey,
    storeState_loadState hblock]

theorem encryptBlock_decryptStraight (nr : Nat) (ek : Nat → Word) {block : List Byte} (hblock : block.length = 16) :
    encryptBlock nr ek (decryptStraight nr ek block) = block := by
  rw [encryptBlock, decryptStraight, loadState_storeState, encryptState, addRoundKey_addRoundKey,
    foldl_encryptRound_straightRound, subBytes_invSubBytes, shiftRows_invShiftRows, addRoundKey_addRoundKey,
    storeState_loadState hblock]

/-- The slot's `Decrypt` is the straight inverse over its own encryption table. -/
theorem KeyHeld.decrypt_eq {key : List Byte} {k : KeySlot} (h : KeyHeld key k) (block : List Byte) :
    k.decrypt block = decryptStraight k.nr.toNat k.ekWord block := by
  obtain ⟨-, -, -, hnr, -, hdk⟩ := h
  exact decryptBlock_eq_decryptStraight (hnr ▸ hdk) block

/-- Settles O33: with a key's schedule `Decrypt` is the straight inverse, and that and `Encrypt` undo each other. -/
theorem decryptInvertsEncrypt : Obligations.DecryptInvertsEncrypt := by
  intro key block k hheld hblock
  rw [hheld.decrypt_eq, hheld.decrypt_eq]
  exact ⟨decryptStraight_encryptBlock _ _ hblock, encryptBlock_decryptStraight _ _ hblock⟩

end Sys2Proof.Machine

/-! Round trips of the modes (spec/44_modes.md R113, R115, R118, R119): ECB and CBC undo themselves block by block, CTR is
the message XORed with a keystream -/

namespace Sys2Proof.Machine

/-! ### ECB and CBC (R113, R115) -/

section
variable {enc dec : List Byte → List Byte}

/-- Deciphering the blocks one by one gives back the message of which they are the ciphertext. -/
theorem ecbBlocks_ecbBlocks (henc : ∀ x, (enc x).length = 16) (hdec : ∀ x, x.length = 16 → dec (enc x) = x) {n : Nat}
    {x : List Byte} (hx : x.length = 16 * n) : ecbBlocks dec n (ecbBlocks enc n x) = x := by
  induction n generalizing x with
  | zero => exact (List.eq_nil_of_length_eq_zero hx).symm
  | succ n ih =>
    have hfirst : memRead (enc (memRead x 0 16) ++ ecbBlocks enc n (x.drop 16)) 0 16 = enc (memRead x 0 16) :=
      memRead_append_first (by rw [henc]; omega)
    have hrest : (enc (memRead x 0 16) ++ ecbBlocks enc n (x.drop 16)).drop 16 = ecbBlocks enc n (x.drop 16) :=
      List.drop_left' (henc _)
    rw [ecbBlocks, ecbBlocks, hfirst, hrest, hdec _ (by rw [memRead_length]; omega),
      ih (by rw [List.length_drop]; omega)]
    exact List.take_append_drop 16 x

/-- The chain read from the ciphertext is the one it was made with. -/
theorem cbcDecryptBlocks_cbcEncryptBlocks (henc : ∀ x, (enc x).length = 16)
    (hdec : ∀ x, x.length = 16 → dec (enc x) = x) {n : Nat} {cv x : List Byte} (hcv : cv.length = 16)
    (hx : x.length = 16 * n) : cbcDecryptBlocks dec n cv (cbcEncryptBlocks enc n cv x) = x := by
  induction n generalizing cv x with
  | zero => exact (List.eq_nil_of_length_eq_zero hx).symm
  | succ n ih =>
    have hblock : (memRead x 0 16).length = 16 := by rw [memRead_length]; omega
    have hfirst (y z : List Byte) : memRead (enc y ++ z) 0 16 = enc y := memRead_append_first (by rw [henc]; omega)
    rw [cbcEncryptBlocks, cbcDecryptBlocks, hfirst, List.drop_left' (henc _), hdec _ (by rw [xorBytes_length]; omega),
      xorBytes_cancel_right _ _ (by omega), ih (henc _) (by rw [List.length_drop]; omega)]
    exact List.take_append_drop 16 x

end

/-! ### CTR is a keystream (R118) -/

/-- XOR goes byte by byte, so it splits where the second string does. -/
theorem xorBytes_append_right (x y z : List Byte) :
    xorBytes x (y ++ z) = xorBytes (x.take y.length) y ++ xorBytes (x.drop y.length) z := by
  induction y generalizing x with
  | nil => rfl
  | cons b y ih =>
    cases x with
    | nil => rfl
    | cons a x => exact congrArg ((a ^^^ b) :: ·) (ih x)

/-- XOR reads no more of the second string than the first is long. -/
theorem xorBytes_take_right (x y : List Byte) {k : Nat} (h : x.length ≤ k) : xorBytes x (y.take k) = xorBytes x y := by
  induction x generalizing y k with
  | nil => rfl
  | cons a x ih =>
    obtain ⟨k, rfl⟩ := Nat.exists_eq_add_of_le' (Nat.one_le_of_lt (Nat.lt_of_lt_of_le x.length.lt_succ_self h))
    cases y with
    | nil => rfl
    | cons b y => exact congrArg ((a ^^^ b) :: ·) (ih y (Nat.le_of_succ_le_succ h))

/-- The keystream of `n` blocks from counter value `ctr`: `Encrypt` of the counter blocks in order (R117, R118). -/
def keystream (enc : List Byte → List Byte) (nonce civ : List Byte) : Nat → Word → List Byte
  | 0, _ => []
  | n + 1, ctr => enc (counterBlock nonce civ ctr) ++ keystream enc nonce civ n (ctr + 1)

/-- Fewer blocks of keystream are the first of more. -/
theorem keystream_prefix (enc : List Byte → List Byte) (nonce civ : List Byte) {m n : Nat} (h : m ≤ n) (ctr : Word) :
    keystream enc nonce civ m ctr <+: keystream enc nonce civ n ctr := by
  induction m generalizing n ctr with
  | zero => exact List.nil_prefix
  | succ m ih =>
    obtain ⟨n, rfl⟩ := Nat.exists_eq_add_of_le' (Nat.one_le_of_lt h)
    exact (List.prefix_append_right_inj _).mpr (ih (Nat.le_of_succ_le_succ h) (ctr + 1))

section
variable {enc : List Byte → List Byte} (henc : ∀ x, (enc x).length = 16) (nonce civ : List Byte)
include henc

theorem keystream_length (n : Nat) (ctr : Word) : (keystream enc nonce civ n ctr).length = 16 * n := by
  induction n generalizing ctr with
  | zero => rfl
  | succ n ih => rw [keystream, List.length_append, henc, ih]; omega

/-- CTR is the message XORed with the keystream (R118). -/
theorem ctrBlocks_eq_xorBytes (n : Nat) (ctr : Word) (x : List Byte) :
    ctrBlocks enc nonce civ n ctr x = xorBytes x (keystream enc nonce civ n ctr) := by
  induction n generalizing ctr x with
  | zero => exact List.zipWith_nil_right.symm
  | succ n ih =>
    have hfirst : xorBytes (memRead x 0 (min 16 x.length)) (memRead (enc (counterBlock nonce civ ctr)) 0 (min 16 x.length)) =
        xorBytes (x.take 16) (enc (counterBlock nonce civ ctr)) := by
      rw [memRead_min_length]
      exact xorBytes_take_right _ _ (List.length_take ..).le
    rw [ctrBlocks, hfirst, ih, keystream, xorBytes_append_right, henc]

/-- More blocks than the message has make no difference. -/
theorem ctrBlocks_of_le {m n : Nat} (h : m ≤ n) (ctr : Word) {x : List Byte} (hx : x.length ≤ 16 * m) :
    ctrBlocks enc nonce civ m ctr x = ctrBlocks enc nonce civ n ctr x := by
  have hprefix := List.prefix_iff_eq_take.mp (keystream_prefix enc nonce civ h ctr)
  rw [ctrBlocks_eq_xorBytes henc, ctrBlocks_eq_xorBytes henc, hprefix, keystream_length henc]
  exact xorBytes_take_right _ _ hx

/-- The same keystream twice cancels (R119). -/
theorem ctrBlocks_ctrBlocks (n : Nat) (ctr : Word) {x : List Byte} (hx : x.length ≤ 16 * n) :
    ctrBlocks enc nonce civ n ctr (ctrBlocks enc nonce civ n ctr x) = x := by
  rw [ctrBlocks_eq_xorBytes henc, ctrBlocks_eq_xorBytes henc]
  exact xorBytes_cancel_right _ _ (by rw [keystream_length henc]; exact hx)

/-- The first `k` bytes of a message encrypt to the first `k` of its ciphertext (R118). -/
theorem ctrBlocks_take (n : Nat) (ctr : Word) (x : List Byte) (k : Nat) :
    ctrBlocks enc nonce civ n ctr (x.take k) = (ctrBlocks enc nonce civ n ctr x).take k := by
  rw [ctrBlocks_eq_xorBytes henc, ctrBlocks_eq_xorBytes henc, ← xorBytes_take_right _ _ (List.length_take_le k x)]
  exact List.take_zipWith.symm

end

/-! ### The commands -/

/-- A response says which output it carries (R44). -/
theorem output_eq_of_answered {s t : State} {st st' : Status} {out out' : List Byte}
    (h : t.output = s.output ++ responseFrame st out) (h' : t.output = s.output ++ responseFrame st' out') : out = out' :=
  congrArg (List.drop 8) (List.append_cancel_left (h.symm.trans h'))

/-- A cipher command that answers `OK` answers its output and leaves the slot. -/
theorem exec_cipher_ok {i : Instr} (s : State) (hcipher : ∀ key, i ≠ .kexp key) (hok : answerStatus s.slot.kv i = .ok) :
    exec i s = .next (answeredState .ok (okOutput s.slot.encrypt s.slot.decrypt i) s) := by
  rw [exec_cipher s hcipher, answerOutput_of_ok hok, hok]

/-- From `s`, `i` and then `j` of its output answer `OK`, and the second answer is `data`. -/
def RoundTrips (s : State) (i : Instr) (j : List Byte → Instr) (data : List Byte) : Prop :=
  ∃ t u c, exec i s = .next t ∧ Answered s t .ok c ∧ exec (j c) t = .next u ∧ Answered t u .ok data

/-- Two cipher commands undo each other when both pass their checks and the output of the second, on that of the first, is
the message. -/
theorem roundTrips_of_okOutput {s : State} {i : Instr} {j : List Byte → Instr} {data c : List Byte}
    (hi : ∀ key, i ≠ .kexp key) (hj : ∀ key, j c ≠ .kexp key) (hc : okOutput s.slot.encrypt s.slot.decrypt i = c)
    (hok : answerStatus s.slot.kv i = .ok) (hok' : answerStatus s.slot.kv (j c) = .ok)
    (hdata : okOutput s.slot.encrypt s.slot.decrypt (j c) = data) : RoundTrips s i j data := by
  have hfirst := exec_cipher_ok s hi hok
  have hsecond := exec_cipher_ok (answeredState .ok c s) hj hok'
  rw [hc] at hfirst
  rw [answeredState_slot, hdata] at hsecond
  exact ⟨_, _, c, hfirst, ⟨rfl, rfl⟩, hsecond, ⟨rfl, rfl⟩⟩

section
variable {key : List Byte} {s : State} (hheld : KeyHeld key s.slot)
include hheld

theorem decrypt_encrypt_of_held (x : List Byte) (hx : x.length = 16) : s.slot.decrypt (s.slot.encrypt x) = x :=
  (decryptInvertsEncrypt key x s.slot hheld hx).1

theorem ecb_roundTrips {data : List Byte} (hdata : data.length % 16 = 0) :
    RoundTrips s (.ecbe data) .ecbd data := by
  obtain ⟨-, hkv, -⟩ := id hheld
  have hblocks : data.length = 16 * (data.length / 16) := by omega
  have hlen : (ecbBlocks s.slot.encrypt (data.length / 16) data).length = data.length := by
    rw [ecbBlocks_length (encrypt_length _), ← hblocks]
  refine roundTrips_of_okOutput nofun nofun rfl ?_ ?_ ?_
  · simp [answerStatus, cipherStatus, hkv, hdata]
  · simp [answerStatus, cipherStatus, hkv, okOutput, hlen, hdata]
  · rw [okOutput, okOutput, hlen, ecbBlocks_ecbBlocks (encrypt_length _) (decrypt_encrypt_of_held hheld) hblocks]

theorem cbc_roundTrips {iv data : List Byte} (hiv : iv.length = 16) (hdata : data.length % 16 = 0) :
    RoundTrips s (.cbce iv data) (.cbcd iv) data := by
  obtain ⟨-, hkv, -⟩ := id hheld
  have hblocks : data.length = 16 * (data.length / 16) := by omega
  have hlen : (cbcEncryptBlocks s.slot.encrypt (data.length / 16) iv data).length = data.length := by
    rw [cbcEncryptBlocks_length (encrypt_length _), ← hblocks]
  refine roundTrips_of_okOutput nofun nofun rfl ?_ ?_ ?_
  · simp [answerStatus, cipherStatus, hkv, hiv, hdata]
  · simp [answerStatus, cipherStatus, hkv, okOutput, hlen, hiv, hdata]
  · rw [okOutput, okOutput, hlen,
      cbcDecryptBlocks_cbcEncryptBlocks (encrypt_length _) (decrypt_encrypt_of_held hheld) hiv hblocks]

theorem ctr_roundTrips {nonce iv : List Byte} (data : List Byte) (hnonce : nonce.length = 4) (hiv : iv.length = 8) :
    RoundTrips s (.ctre nonce iv data) (.ctrd nonce iv) data := by
  obtain ⟨-, hkv, -⟩ := id hheld
  have hblocks : data.length ≤ 16 * blockCount data.length := by rw [blockCount]; omega
  have hlen : (ctrBlocks s.slot.encrypt nonce iv (blockCount data.length) 1 data).length = data.length := by
    rw [ctrBlocks_length (encrypt_length _), Nat.min_eq_right hblocks]
  refine roundTrips_of_okOutput nofun nofun rfl ?_ ?_ ?_
  · simp [answerStatus, cipherStatus, hkv, hnonce, hiv]
  · simp [answerStatus, cipherStatus, hkv, hnonce, hiv]
  · rw [okOutput, okOutput, hlen, ctrBlocks_ctrBlocks (encrypt_length _) nonce iv _ _ hblocks]

end

/-- Settles O35: under a held key `Decrypt` undoes `Encrypt` on every block (O33), which ECB and CBC need, and CTR XORs the
same keystream twice. -/
theorem modesRoundTrip : Obligations.ModesRoundTrip := fun _ data _ hheld =>
  ⟨fun hdata => ecb_roundTrips hheld hdata, fun _ hiv hdata => cbc_roundTrips hheld hiv hdata,
    fun _ _ hnonce hiv => ctr_roundTrips hheld data hnonce hiv⟩

/-- Settles O36: XORing the first bytes of the message with the keystream gives the first bytes of the ciphertext
(`ctrBlocks_take`), and the blocks of keystream that are then too many make no difference. -/
theorem ctrPrefixProperty : Obligations.CtrPrefixProperty := by
  intro nonce iv data k s t u c d hkv hnonce hiv hrun ⟨hc, _⟩ hrun' ⟨hd, _⟩
  have hcipher (x : List Byte) : ∀ key, Instr.ctre nonce iv x ≠ .kexp key := nofun
  have hok (x : List Byte) : answerStatus s.slot.kv (.ctre nonce iv x) = .ok := by
    simp [answerStatus, cipherStatus, hkv, hnonce, hiv]
  obtain rfl : _ = t := Host.Outcome.next.inj ((exec_cipher_ok s (hcipher _) (hok data)).symm.trans hrun)
  obtain rfl : _ = u := Host.Outcome.next.inj ((exec_cipher_ok s (hcipher _) (hok (data.take k))).symm.trans hrun')
  have henc := encrypt_length s.slot
  have hfewer : blockCount (data.take k).length ≤ blockCount data.length := by
    rw [blockCount, blockCount, List.length_take]
    omega
  have hblocks : (data.take k).length ≤ 16 * blockCount (data.take k).length := by rw [blockCount]; omega
  rw [← output_eq_of_answered (answeredState_output ..) hc, ← output_eq_of_answered (answeredState_output ..) hd, okOutput,
    okOutput, ctrBlocks_of_le henc nonce iv hfewer _ hblocks, ctrBlocks_take henc]

end Sys2Proof.Machine

/-! The spec's own samples (spec/30_encoding.md section 8, spec/95_test_vectors.md sections 1 and 2.9), run by the model -/

namespace Sys2Proof.Machine

/-- Settles O54, by running the assembler on the lines. -/
theorem sampleLinesAssemble : Obligations.SampleLinesAssemble := by
  unfold Obligations.SampleLinesAssemble
  decide +kernel

/-- `Decrypt` over a key's decryption table undoes `Encrypt` over its encryption table, whatever the key is (R102). -/
theorem decryptBlock_encryptBlock_expandKey (key : List Byte) {block : List Byte} (hblock : block.length = 16) :
    decryptBlock (expandKey key).nr (wordAt (expandKey key).dk)
      (encryptBlock (expandKey key).nr (wordAt (expandKey key).ek) block) = block := by
  have htables : DecryptionWords (expandKey key).nr (wordAt (expandKey key).ek) (wordAt (expandKey key).dk) :=
    decryptionWords_of_table _ _ _ _ (fun _ _ => rfl) fun _ _ => rfl
  rw [decryptBlock_eq_decryptStraight htables, decryptStraight_encryptBlock _ _ hblock]

/-- Settles O55, by running the cipher forwards on the vectors; `Decrypt` then gives the block back. -/
theorem knownAnswers : Obligations.KnownAnswers := by
  intro plain rangeKey enc dec hplain hrange henc hdec
  have hback {key cipher : List Byte} (h : enc key plain = cipher) : dec key cipher = plain := by
    rw [← h, hdec, henc]
    exact decryptBlock_encryptBlock_expandKey key (by rw [hplain]; rfl)
  have h128 : enc (rangeKey 16) plain =
      [0x69, 0xc4, 0xe0, 0xd8, 0x6a, 0x7b, 0x04, 0x30, 0xd8, 0xcd, 0xb7, 0x80, 0x70, 0xb4, 0xc5, 0x5a] := by
    subst hplain hrange henc
    decide +kernel
  have h192 : enc (rangeKey 24) plain =
      [0xdd, 0xa9, 0x7c, 0xa4, 0x86, 0x4c, 0xdf, 0xe0, 0x6e, 0xaf, 0x70, 0xa0, 0xec, 0x0d, 0x71, 0x91] := by
    subst hplain hrange henc
    decide +kernel
  have h256 : enc (rangeKey 32) plain =
      [0x8e, 0xa2, 0xb7, 0xca, 0x51, 0x67, 0x45, 0xbf, 0xea, 0xfc, 0x49, 0x90, 0x4b, 0x49, 0x60, 0x89] := by
    subst hplain hrange henc
    decide +kernel
  refine ⟨h128, hback h128, h192, hback h192, h256, hback h256, ?_⟩
  subst henc
  decide +kernel

end Sys2Proof.Machine
